-- ==== Sys2Proof/Word.lean ====
section
/-! DEFINITION. The widths of the block's values (spec rule R8): command words, groups and characters,
node indices, code lengths and codes. -/

namespace Sys2Proof

/-- A command word, CMD_W = 32 bits (R8, R60). -/
abbrev Word := BitVec 32

/-- A group of the packed stream, GROUP_W = 8 bits (R8). -/
abbrev Byte := BitVec 8

/-- A character, CHAR_W = 8 bits (R8). -/
abbrev Ch := BitVec 8

/-- A node index, IDX_W = 9 bits (R8). -/
abbrev NodeIdx := BitVec 9

/-- A code length, LEN_W = 4 bits (R8). -/
abbrev CodeLen := BitVec 4

/-- The bits of a code, right-aligned in MAXLEN = 15 bits (R8, R19). -/
abbrev CodeBits := BitVec 15

end Sys2Proof
end

