-- ==== Sys2Proof/Syntax.lean ====
section
/-! DEFINITION. The nine commands of the block, one constructor per row of spec/opcode_table.json
(spec rule R61). -/

namespace Sys2Proof

/-- A command. Operands carry the widths of the fields they come from (R60, R62 to R64); which operand
values a legal word can carry is `Instr.WellFormed`. -/
inductive Instr where
  /-- RESET (R80): return the whole block to its reset state. -/
  | reset
  /-- TCLR (R81): discard the code table and the decode tree. -/
  | tclr
  /-- LDC (R92): add the pair of character `ch` and bit-string (`len`, `code`) to the code table. -/
  | ldc (len : CodeLen) (ch : Ch) (code : CodeBits)
  /-- TFIN (R82): declare the code table complete. -/
  | tfin
  /-- ENC (R100): pack the code of character `ch`. -/
  | enc (ch : Ch)
  /-- EFLUSH (R101): end the encode session, emit the final partial group. -/
  | eflush
  /-- DECBIT (R110): move the traverser one step, left for `false` (0), right for `true` (1). -/
  | decbit (bit : Bool)
  /-- DECB (R111): decode the `n` most significant bits of the group `g`. -/
  | decb (n : BitVec 4) (g : Byte)
  /-- TRST (R83): return the traverser to the root. -/
  | trst
  deriving DecidableEq, Repr

end Sys2Proof
end

