-- ==== Sys2Proof/WellFormed.lean ====
section
/-! DEFINITION. Which commands a legal word can carry: the operand constraints of spec rules R63 and R64. -/

namespace Sys2Proof

/-- The operand constraints of R65's table: LDC's code has no bit at or above `len` (R63); DECB's bit count
is 1 to 8 (R64). Every operand value of the other commands is legal. No word carries a command that is not well-formed
(DESIGN CHOICE, safe; log entry 11). -/
def Instr.wellFormed : Instr → Bool
  | .ldc len _ code => code >>> len.toNat == 0
  | .decb n _ => decide (1 ≤ n.toNat) && decide (n.toNat ≤ 8)
  | .reset | .tclr | .tfin | .enc _ | .eflush | .decbit _ | .trst => true

/-- `i` is a command that some legal word carries (R65). -/
abbrev Instr.WellFormed (i : Instr) : Prop := i.wellFormed = true

end Sys2Proof
end

