-- ==== Sys2Proof/Decode.lean ====
section
/-! DEFINITION. Command words: the fields of format C, the decoder (spec rules R60 to R66) and the encoder
written from the same encoding table. -/

namespace Sys2Proof

/-- Why a word is no command (R66). -/
inductive IllegalWord where
  /-- The opcode is 0x0 or one of 0xA to 0xF. -/
  | reservedOpcode
  /-- A field that must be 0 is not. -/
  | reservedField
  /-- LDC: a code bit at or above position `len` is set. -/
  | codeBeyondLength
  /-- DECB: the bit count is 0 or greater than 8. -/
  | bitCount
  deriving DecidableEq, Repr

/-- word[31:28], the opcode (R60). -/
def opField (w : Word) : BitVec 4 := w.extractLsb' 28 4

/-- word[27:24], the small count: `len` of LDC, `n` of DECB (R60, R63, R64). -/
def countField (w : Word) : BitVec 4 := w.extractLsb' 24 4

/-- word[23:16], the byte operand: `ch` of LDC and ENC, `g` of DECB (R60, R62, R64). -/
def byteField (w : Word) : BitVec 8 := w.extractLsb' 16 8

/-- word[15:0], the low half (R60). -/
def lowField (w : Word) : BitVec 16 := w.extractLsb' 0 16

/-- word[14:0], `code` of LDC (R63). -/
def codeField (w : Word) : CodeBits := w.extractLsb' 0 15

/-- A command without operands: every other field must be 0 (R61). -/
def decodeBare (w : Word) (i : Instr) : Except IllegalWord Instr :=
  if countField w = 0 ∧ byteField w = 0 ∧ lowField w = 0 then .ok i else .error .reservedField

/-- LDC: bit 15 must be 0 and the code must fit its length (R61, R63). -/
def decodeLdc (w : Word) : Except IllegalWord Instr :=
  if w.getLsbD 15 = true then .error .reservedField
  else if codeField w >>> (countField w).toNat = 0 then
    .ok (.ldc (countField w) (byteField w) (codeField w))
  else .error .codeBeyondLength

/-- ENC: fields a and c must be 0 (R61, R62). -/
def decodeEnc (w : Word) : Except IllegalWord Instr :=
  if countField w = 0 ∧ lowField w = 0 then .ok (.enc (byteField w)) else .error .reservedField

/-- DECBIT: every bit between the opcode and bit 0 must be 0 (R61, R64). -/
def decodeDecbit (w : Word) : Except IllegalWord Instr :=
  if countField w = 0 ∧ byteField w = 0 ∧ lowField w >>> 1 = 0 then .ok (.decbit (w.getLsbD 0))
  else .error .reservedField

/-- DECB: field c must be 0 and the bit count 1 to 8 (R61, R64). -/
def decodeDecb (w : Word) : Except IllegalWord Instr :=
  if lowField w ≠ 0 then .error .reservedField
  else if 1 ≤ (countField w).toNat ∧ (countField w).toNat ≤ 8 then
    .ok (.decb (countField w) (byteField w))
  else .error .bitCount

/-- The decoder (R65): total, every word is one command or illegal by name; it reads no state. -/
def decode (w : Word) : Except IllegalWord Instr :=
  match (opField w).toNat with
  | 0x1 => decodeBare w .reset
  | 0x2 => decodeBare w .tclr
  | 0x3 => decodeLdc w
  | 0x4 => decodeBare w .tfin
  | 0x5 => decodeEnc w
  | 0x6 => decodeBare w .eflush
  | 0x7 => decodeDecbit w
  | 0x8 => decodeDecb w
  | 0x9 => decodeBare w .trst
  | _ => .error .reservedOpcode

/-- Format C (R60): op in [31:28], a in [27:24], b in [23:16], c in [15:0]. -/
def formatC (op a : BitVec 4) (b : BitVec 8) (c : BitVec 16) : Word :=
  (op.setWidth 32 <<< 28) ||| (a.setWidth 32 <<< 24) ||| (b.setWidth 32 <<< 16) ||| c.setWidth 32

/-- The encoder: the word of a command (R61 to R65). -/
def encode : Instr → Word
  | .reset => formatC 0x1 0 0 0
  | .tclr => formatC 0x2 0 0 0
  | .ldc len ch code => formatC 0x3 len ch (code.setWidth 16)
  | .tfin => formatC 0x4 0 0 0
  | .enc ch => formatC 0x5 0 ch 0
  | .eflush => formatC 0x6 0 0 0
  | .decbit bit => formatC 0x7 0 0 ((BitVec.ofBool bit).setWidth 16)
  | .decb n g => formatC 0x8 n g 0
  | .trst => formatC 0x9 0 0 0

/-- The command word that the low `nbits` bits of `w` make, the bits above them 0. The word is one value on
one port and is never split into bytes (R48, R60) (DEDUCED, safe; log entry 14). -/
def tableWord (nbits w : Nat) : Word := BitVec.ofNat 32 (w % 2 ^ nbits)

/-- What the decoder reads from a word numbered as spec/opcode_table.json numbers it; none if illegal. -/
def decodeTableWord (nbits w : Nat) : Option Instr :=
  match decode (tableWord nbits w) with
  | .ok i => some i
  | .error _ => none

end Sys2Proof
end

