-- ==== Sys2Proof/Config.lean ====
section
/-! DEFINITION. The sizes this hardware fixes (spec rule R8). The spec leaves no value of the block open
(R27, U1 to U11 of 93_implementation_defined.md), so there is no free value here. -/

namespace Sys2Proof

/-- NNODES: records of the node arena (R8, R17). -/
@[simp] def Config.nnodes : Nat := 512

/-- NCHARS: entries of the CLUT (R8, R19). -/
@[simp] def Config.nchars : Nat := 256

/-- MAXLEN: the greatest code length (R8). -/
@[simp] def Config.maxLen : Nat := 15

/-- GROUP_W: bits of a group (R8). -/
@[simp] def Config.groupWidth : Nat := 8

/-- 2^PBITS_W - 1: the greatest bit count PBITS holds (R15, R100). -/
@[simp] def Config.maxBitCount : Nat := 4294967295

end Sys2Proof
end

