-- ==== Sys2Proof/Machine/State.lean ====
section
/-! DEFINITION. The state of the block (spec rules R10 to R23), of its host's pending moves (R6), the causes of
the block's faults (R141), and the ways a step of the model can stop (none that a run reaches). -/

namespace Sys2Proof.Machine

/-- The role of a node record (R17). The field's value 3 is never written and has no constructor
(DEDUCED, safe; log entry 7). -/
inductive NodeTag where
  /-- 0: no role yet. -/
  | empty
  /-- 1: a branch point. -/
  | internal
  /-- 2: a character. -/
  | leaf
  deriving DecidableEq, Repr

/-- A record of the node arena (R17): 2 + 8 + 9 + 9 bits. Link 0 is "no child". -/
structure Node where
  tag : NodeTag
  ch : Ch
  l : NodeIdx
  r : NodeIdx
  deriving DecidableEq, Repr

/-- An entry of the code look-up table (R19): 1 + 4 + 15 bits. -/
structure ClutEntry where
  valid : Bool
  len : CodeLen
  code : CodeBits
  deriving DecidableEq, Repr

/-- The phase of the block (R29). -/
inductive Phase where
  | loading
  | ready
  | faulted
  deriving DecidableEq, Repr

/-- The causes of the block's faults (R141), in the order of their codes 1 to 7. The block's fault is a next
state (R150), never the end of a run. -/
inductive Cause where
  | invalidInput
  | missingCode
  | invalidCodeTable
  | illegalCommand
  | sequenceError
  | capacityExceeded
  | invalidPath
  deriving DecidableEq, Repr

/-- The host's moves, and all of them (R6, R130). -/
inductive HostMove where
  /-- Issue a 32-bit word as a command. -/
  | command (w : Word)
  /-- Assert the reset input `rst` (R170). -/
  | reset
  /-- Read the register of this number through the read port (R24). -/
  | read (raddr : BitVec 3)
  deriving DecidableEq, Repr

/-- Reasons for which the machine itself would stop. There is none: the block has no halt, no hang and no stuck
state (R190), every command terminates (R189), and what the spec calls a fault is a next state (R150) (DEDUCED, safe; log entry 13). -/
inductive Fault where
  deriving DecidableEq, Repr

/-- Reasons for which the model would give no meaning. -/
inductive Refusal where
  /-- Raised by `exec`'s arm of an instruction that has no meaning yet (no arm raises it now); safe. -/
  | notModelled (mnemonic : String)
  deriving DecidableEq, Repr

/-- The architectural state (R10) and, last, the moves the host has not yet made. NODE and CLUT are held as
(index, record) pairs with rising indices; an index that is not listed reads as its reset value (R27)
(DESIGN CHOICE, safe; log entry 5). -/
structure State where
  /-- ACC: the bits of the group being packed, right-aligned (R11). -/
  acc : BitVec 8
  /-- ACNT: how many bits of ACC are valid, 0 to 7 (R12). -/
  acnt : BitVec 3
  /-- PSYM: an encode session is open (R13). -/
  psym : Bool
  /-- PBITS: the bit length of the open or last closed session (R15). -/
  pbits : BitVec 32
  /-- TRDY: the table is final (R14). -/
  trdy : Bool
  /-- CUR: the node the traverser is at (R16). -/
  cur : NodeIdx
  /-- NODE: the node arena (R17). -/
  node : List (Nat × Node)
  /-- NALLOC: arena records in use (R18). -/
  nalloc : BitVec 10
  /-- CLUT: the code look-up table (R19). -/
  clut : List (Nat × ClutEntry)
  /-- ERR: a command has faulted since reset (R21). -/
  err : Bool
  /-- CAUSE: the cause code of that fault (R21). -/
  cause : BitVec 4
  /-- ECMD: the word that faulted (R22). -/
  ecmd : Word
  /-- OUTB: the groups emitted since reset, oldest first (R23); the host takes every token (DEDUCED, unsafe; log
  entry 8). -/
  outb : List Byte
  /-- OUTC: the characters emitted since reset, oldest first (R23). -/
  outc : List Ch
  /-- The model's own field, no state of the block: the host's moves still to come, the next one first (R6, R190)
  (DESIGN CHOICE, safe; log entry 1). -/
  input : List HostMove
  deriving DecidableEq, Repr

/-- The machine right after reset (R27, R170), the host having nothing to say yet (`input`: DESIGN CHOICE,
safe; log entry 1). -/
def State.reset : State where
  acc := 0
  acnt := 0
  psym := false
  pbits := 0
  trdy := false
  cur := 0
  node := []
  nalloc := 1
  clut := []
  err := false
  cause := 0
  ecmd := 0
  outb := []
  outc := []
  input := []

end Sys2Proof.Machine
end

