-- ==== Sys2Proof/Machine/Table.lean ====
section
/-! DEFINITION. The block's two memories, CLUT and NODE (spec rules R40 to R42): reading and writing one whole
entry, and the one canonical form their lists have. -/

namespace Sys2Proof.Machine

variable {α : Type}

/-- The entry at index `a`; an index that is not listed reads as `dflt`. -/
def readAt (dflt : α) : List (Nat × α) → Nat → α
  | [], _ => dflt
  | (k, v) :: t, a => if k = a then v else readAt dflt t a

/-- Put an entry before the first one of a greater index. -/
def insertAt (a : Nat) (v : α) : List (Nat × α) → List (Nat × α)
  | [] => [(a, v)]
  | (k, u) :: t => if a < k then (a, v) :: (k, u) :: t else (k, u) :: insertAt a v t

/-- The table with `v` at index `a`. Writing what an unlisted index reads as removes the entry. -/
def writeAt [DecidableEq α] (dflt : α) (t : List (Nat × α)) (a : Nat) (v : α) : List (Nat × α) :=
  if v = dflt then t.filter (fun e => e.1 != a) else insertAt a v (t.filter (fun e => e.1 != a))

/-- The canonical form: indices strictly rising and below `bound`, no entry equal to `dflt`. -/
abbrev Canonical (dflt : α) (bound : Nat) (t : List (Nat × α)) : Prop :=
  t.Pairwise (fun x y => x.1 < y.1) ∧ ∀ e ∈ t, e.1 < bound ∧ e.2 ≠ dflt

/-- The record (EMPTY, 0, 0, 0), what every NODE record holds at reset (R17, R27). -/
def emptyNode : Node := ⟨.empty, 0, 0, 0⟩

/-- The entry (0, 0, 0), what every CLUT entry holds at reset (R19, R27). -/
def noCode : ClutEntry := ⟨false, 0, 0⟩

/-- NODE[i] (R42): every 9-bit index is in range. -/
def nodeAt (t : List (Nat × Node)) (i : NodeIdx) : Node := readAt emptyNode t i.toNat

/-- NODE[i] <- n (R42). -/
def writeNode (i : NodeIdx) (n : Node) (s : State) : State :=
  { s with node := writeAt emptyNode s.node i.toNat n }

/-- CLUT[c] (R41): every 8-bit character is in range. -/
def clutAt (t : List (Nat × ClutEntry)) (c : Ch) : ClutEntry := readAt noCode t c.toNat

/-- CLUT[c] <- e (R41). -/
def writeClut (c : Ch) (e : ClutEntry) (s : State) : State :=
  { s with clut := writeAt noCode s.clut c.toNat e }

/-- Both memories are in canonical form. -/
abbrev Memory.wf (s : State) : Prop :=
  Canonical noCode Config.nchars s.clut ∧ Canonical emptyNode Config.nnodes s.node

end Sys2Proof.Machine
end

