-- ==== Sys2Proof/Machine/Flags.lean ====
section
/-! DEFINITION. The phase, the flags, the STATUS word and the register read port (spec rules R24, R25, R29). -/

namespace Sys2Proof.Machine

/-- The phase, a function of ERR and TRDY (R29). -/
def State.phase (s : State) : Phase :=
  if s.err then .faulted else if s.trdy then .ready else .loading

/-- ATROOT: not a register, 1 exactly when CUR = 0 (R25). -/
def State.atRoot (s : State) : Bool := s.cur == 0

/-- STATUS (R24): [31:12] 0, [11:8] CAUSE, [7] 0, [6:4] ACNT, [3] ATROOT, [2] PSYM, [1] TRDY, [0] ERR. -/
def statusWord (s : State) : Word :=
  (s.cause.setWidth 32 <<< 8) ||| (s.acnt.setWidth 32 <<< 4) |||
    ((BitVec.ofBool s.atRoot).setWidth 32 <<< 3) ||| ((BitVec.ofBool s.psym).setWidth 32 <<< 2) |||
    ((BitVec.ofBool s.trdy).setWidth 32 <<< 1) ||| (BitVec.ofBool s.err).setWidth 32

/-- The read port (R24): 32 bits for a 3-bit register number, in every phase; numbers 5, 6, 7 read 0. -/
def readPort (s : State) (raddr : BitVec 3) : Word :=
  match raddr.toNat with
  | 0 => statusWord s
  | 1 => s.pbits
  | 2 => s.ecmd
  | 3 => s.cur.setWidth 32
  | 4 => s.nalloc.setWidth 32
  | _ => 0

/-- The output `err`, a level that equals ERR (R152, R172). -/
def errOutput (s : State) : Bool := s.err

/-- The code of a cause, as CAUSE holds it (R141). -/
def Cause.code : Cause → BitVec 4
  | .invalidInput => 1
  | .missingCode => 2
  | .invalidCodeTable => 3
  | .illegalCommand => 4
  | .sequenceError => 5
  | .capacityExceeded => 6
  | .invalidPath => 7

/-- The tag's 2-bit value (R17). -/
def NodeTag.code : NodeTag → BitVec 2
  | .empty => 0
  | .internal => 1
  | .leaf => 2

end Sys2Proof.Machine
end

