-- ==== Sys2Proof/Machine/Operands.lean ====
section
/-! DEFINITION. Operand forms: the bit-string of a (len, code) pair (spec rules R47, R63), the bits of a group
(R46, R64), and the child of a node a bit selects (R17). -/

namespace Sys2Proof.Machine

/-- code[k-1], ..., code[0]: the path bits of a code of length `k`, first path bit first (R47, R63). -/
def pathBits : Nat → CodeBits → List Bool
  | 0, _ => []
  | k + 1, code => code.getLsbD k :: pathBits k code

/-- The bit-string of a CLUT entry (R19). -/
def codeBits (e : ClutEntry) : List Bool := pathBits e.len.toNat e.code

/-- g[7], ..., g[0]: the bits of a group, first stream bit first (R46). -/
def byteBits (g : Byte) : List Bool :=
  [g.getLsbD 7, g.getLsbD 6, g.getLsbD 5, g.getLsbD 4, g.getLsbD 3, g.getLsbD 2, g.getLsbD 1, g.getLsbD 0]

/-- g[7], ..., g[8-n]: the `n` most significant bits of a group (R64, R111). -/
def groupBits (n : BitVec 4) (g : Byte) : List Bool := (byteBits g).take n.toNat

/-- The link a bit selects: left on 0, right on 1; 0 is "no child" (R17). -/
def Node.child (n : Node) (b : Bool) : NodeIdx := if b then n.r else n.l

/-- The node as a branch point whose link on bit `b` is `j`; its other link is kept (R92). -/
def Node.withChild (n : Node) (b : Bool) (j : NodeIdx) : Node :=
  if b then ⟨.internal, n.ch, n.l, j⟩ else ⟨.internal, n.ch, j, n.r⟩

end Sys2Proof.Machine
end

