-- ==== Sys2Proof/Machine/Ops.lean ====
section
/-! DEFINITION. The operations the commands share: fault entry and the return from it (spec rules R150, R151),
the acceptance table and the order of checks (R143, R145), emitting a token (R44), packing a bit (R100),
walking and growing the decode tree (R92, R112). -/

namespace Sys2Proof.Machine

/-- Fault entry (R150): ERR, CAUSE and ECMD are written and nothing else. -/
def faultEntry (c : Cause) (w : Word) (s : State) : State :=
  { s with err := true, cause := c.code, ecmd := w }

/-- Reset, by the input `rst` or by RESET, and so the only return from a fault (R80, R151, R170): the whole
block takes its reset state. The host's moves still to come are no state of the block and stay. -/
def resetBlock (s : State) : State := { State.reset with input := s.input }

/-- emitB (R44). -/
def emitB (v : Byte) (s : State) : State := { s with outb := s.outb ++ [v] }

/-- emitC of each character in turn (R44). -/
def emitChars (cs : List Ch) (s : State) : State := { s with outc := s.outc ++ cs }

/-- What the block does with a legal command in a phase (R145). -/
inductive Disposition where
  | executes
  | sequenceError
  | ignored
  deriving DecidableEq, Repr

/-- A row of R145's table: what happens in LOADING, in READY and in FAULTED. -/
def Phase.choose (p : Phase) (loading ready faulted : Disposition) : Disposition :=
  match p with
  | .loading => loading
  | .ready => ready
  | .faulted => faulted

/-- The acceptance table (R145), one line per command. -/
def disposition (i : Instr) (p : Phase) : Disposition :=
  match i with
  | .reset => p.choose .executes .executes .executes
  | .tclr => p.choose .executes .executes .ignored
  | .ldc _ _ _ => p.choose .executes .sequenceError .ignored
  | .tfin => p.choose .executes .sequenceError .ignored
  | .enc _ => p.choose .sequenceError .executes .ignored
  | .eflush => p.choose .sequenceError .executes .ignored
  | .decbit _ => p.choose .sequenceError .executes .ignored
  | .decb _ _ => p.choose .sequenceError .executes .ignored
  | .trst => p.choose .executes .executes .ignored

/-- Steps 1, 3 and 4 of R143 for the legal command `i` whose own rule is `rule`: ignore it, fault with
SequenceError, or run its rule; a fault the rule raises leaves nothing but fault entry (R149). ECMD takes the
command's word (R150), which R65 makes the word issued (DEDUCED, safe; log entry 6). -/
def runCommand (i : Instr) (rule : State → Except Cause State) (s : State) :
    Host.Outcome State Fault Refusal :=
  match disposition i s.phase with
  | .ignored => .next s
  | .sequenceError => .next (faultEntry .sequenceError (encode i) s)
  | .executes =>
    match rule s with
    | .ok t => .next t
    | .error c => .next (faultEntry c (encode i) s)

/-- {ACC[6:0], b} (R100): shift left by one, the new bit enters at bit 0; 8-bit result. -/
def shiftIn (acc : BitVec 8) (b : Bool) : BitVec 8 := (acc <<< 1) ||| (BitVec.ofBool b).setWidth 8

/-- One bit into the packer (R100): a full group is emitted at once. -/
def packBit (s : State) (b : Bool) : State :=
  if s.acnt.toNat + 1 = 8 then emitB (shiftIn s.acc b) { s with acc := 0, acnt := 0 }
  else { s with acc := shiftIn s.acc b, acnt := s.acnt + 1 }

/-- Bits into the packer, the first one first (R100). -/
def packBits : List Bool → State → State
  | [], s => s
  | b :: bs, s => packBits bs (packBit s b)

/-- tstep (R112): one move of the traverser from `cur`: the next index and the character emitted, if any. -/
def tstep (t : List (Nat × Node)) (cur : NodeIdx) (b : Bool) : Except Cause (NodeIdx × Option Ch) :=
  let nxt := (nodeAt t cur).child b
  if nxt = 0 then .error .invalidPath
  else if (nodeAt t nxt).tag = .leaf then .ok (0, some (nodeAt t nxt).ch)
  else .ok (nxt, none)

/-- tstep over bits in order (R111): the last index and the characters emitted, the earliest first. -/
def walk (t : List (Nat × Node)) (cur : NodeIdx) : List Bool → Except Cause (NodeIdx × List Ch)
  | [] => .ok (cur, [])
  | b :: bs =>
    match tstep t cur b with
    | .error c => .error c
    | .ok (nxt, oc) =>
      match walk t nxt bs with
      | .error c => .error c
      | .ok (last, out) => .ok (last, oc.toList ++ out)

/-- LDC's phase 1 (R92): follow the part of the path that exists. The answer is the node where the path leaves
the tree and the path bits not yet consumed; a LEAF with bits left is a loaded code that is a prefix. -/
def descend (t : List (Nat × Node)) (cur : NodeIdx) : List Bool → Except Cause (NodeIdx × List Bool)
  | [] => .ok (cur, [])
  | b :: bs =>
    if (nodeAt t cur).tag = .leaf then .error .invalidCodeTable
    else
      let nxt := (nodeAt t cur).child b
      if nxt = 0 then .ok (cur, b :: bs) else descend t nxt bs

/-- The index the next new node gets (R18, R92): NALLOC in 9 bits, as NALLOC is below 512 where a node is made
(DEDUCED, safe; log entry 12). -/
def newIndex (s : State) : NodeIdx := s.nalloc.setWidth 9

/-- Allocate the record `n` as the child of `cur` on bit `b` (R92, one round of phase 2). -/
def addChild (cur : NodeIdx) (b : Bool) (n : Node) (s : State) : State :=
  writeNode (newIndex s) n
    (writeNode cur ((nodeAt s.node cur).withChild b (newIndex s)) { s with nalloc := s.nalloc + 1 })

/-- LDC's phase 2 (R92): create the rest of the path below `cur`, the last node the leaf of `ch`. -/
def growPath (ch : Ch) (cur : NodeIdx) : List Bool → State → State
  | [], s => s
  | [b], s => addChild cur b ⟨.leaf, ch, 0, 0⟩ s
  | b :: b' :: bs, s => growPath ch (newIndex s) (b' :: bs) (addChild cur b ⟨.internal, 0, 0, 0⟩ s)

end Sys2Proof.Machine
end

