-- ==== Sys2Proof/Machine/Control.lean ====
section
/-! DEFINITION. The control commands RESET, TCLR, TFIN, TRST (spec rules R80 to R83). -/

namespace Sys2Proof.Machine

/-- RESET (R80): accepted in every phase. -/
def execReset (s : State) : Host.Outcome State Fault Refusal :=
  runCommand .reset (fun s => .ok (resetBlock s)) s

/-- TCLR's own rule (R81): table, tree, traverser and packer are cleared; the output records and the fault
registers are not touched. -/
def clearTable (s : State) : State :=
  { s with
    clut := [], node := [], nalloc := 1, trdy := false, cur := 0
    acc := 0, acnt := 0, psym := false, pbits := 0 }

/-- TCLR (R81). -/
def execTclr (s : State) : Host.Outcome State Fault Refusal :=
  runCommand .tclr (fun s => .ok (clearTable s)) s

/-- TFIN's own rule (R82): an empty table is refused, any other becomes read-only. -/
def finishTable (s : State) : Except Cause State :=
  if (nodeAt s.node 0).tag = .empty then .error .invalidCodeTable
  else .ok { s with trdy := true, cur := 0 }

/-- TFIN (R82). -/
def execTfin (s : State) : Host.Outcome State Fault Refusal :=
  runCommand .tfin finishTable s

/-- TRST (R83): only CUR is written. -/
def execTrst (s : State) : Host.Outcome State Fault Refusal :=
  runCommand .trst (fun s => .ok { s with cur := 0 }) s

end Sys2Proof.Machine
end

