-- ==== Sys2Proof/Machine/Pack.lean ====
section
/-! DEFINITION. The pack commands ENC and EFLUSH (spec rules R99 to R101). -/

namespace Sys2Proof.Machine

/-- The bit count an ENC starts from: PBITS in an open session, 0 for a new one (R100). -/
def bitBase (s : State) : Nat := if s.psym then s.pbits.toNat else 0

/-- ENC's own rule (R100). -/
def packChar (ch : Ch) (s : State) : Except Cause State :=
  let e := clutAt s.clut ch
  if e.valid = false then .error .missingCode
  else if Config.maxBitCount < bitBase s + e.len.toNat then .error .capacityExceeded
  else .ok { packBits (codeBits e) s with pbits := BitVec.ofNat 32 (bitBase s + e.len.toNat), psym := true }

/-- ENC (R100). -/
def execEnc (ch : Ch) (s : State) : Host.Outcome State Fault Refusal :=
  runCommand (.enc ch) (packChar ch) s

/-- The last group, its valid bits moved to the high-order end (R49, R101). -/
def paddedGroup (s : State) : Byte := s.acc <<< (8 - s.acnt.toNat)

/-- EFLUSH's own rule (R101): PBITS is not written. -/
def flushPacker (s : State) : Except Cause State :=
  if s.psym = false then .error .invalidInput
  else
    .ok { (if 0 < s.acnt.toNat then emitB (paddedGroup s) s else s) with acc := 0, acnt := 0, psym := false }

/-- EFLUSH (R101). -/
def execEflush (s : State) : Host.Outcome State Fault Refusal :=
  runCommand .eflush flushPacker s

end Sys2Proof.Machine
end

