-- ==== Sys2Proof/Machine/TableLoad.lean ====
section
/-! DEFINITION. The table load command LDC (spec rules R90 to R92). -/

namespace Sys2Proof.Machine

/-- LDC's own rule (R92): the checks in the order of its pseudocode, then the path, the leaf and the CLUT entry. -/
def loadPair (len : CodeLen) (ch : Ch) (code : CodeBits) (s : State) : Except Cause State :=
  if len = 0 then .error .invalidCodeTable
  else if (clutAt s.clut ch).valid then .error .invalidCodeTable
  else
    match descend s.node 0 (pathBits len.toNat code) with
    | .error c => .error c
    | .ok (_, []) => .error .invalidCodeTable
    | .ok (cur, b :: bs) =>
      if Config.nnodes < s.nalloc.toNat + (b :: bs).length then .error .capacityExceeded
      else .ok (writeClut ch ⟨true, len, code⟩ (growPath ch cur (b :: bs) s))

/-- LDC (R92). -/
def execLdc (len : CodeLen) (ch : Ch) (code : CodeBits) (s : State) : Host.Outcome State Fault Refusal :=
  runCommand (.ldc len ch code) (loadPair len ch code) s

end Sys2Proof.Machine
end

