-- ==== Sys2Proof/Machine/Traverse.lean ====
section
/-! DEFINITION. The decode commands DECBIT and DECB (spec rules R109 to R112). -/

namespace Sys2Proof.Machine

/-- DECBIT's own rule (R110). -/
def moveOne (bit : Bool) (s : State) : Except Cause State :=
  match tstep s.node s.cur bit with
  | .error c => .error c
  | .ok (nxt, oc) => .ok { emitChars oc.toList s with cur := nxt }

/-- DECBIT (R110). -/
def execDecbit (bit : Bool) (s : State) : Host.Outcome State Fault Refusal :=
  runCommand (.decbit bit) (moveOne bit) s

/-- DECB's own rule (R111): all `n` moves, or nothing. -/
def decodeGroup (n : BitVec 4) (g : Byte) (s : State) : Except Cause State :=
  match walk s.node s.cur (groupBits n g) with
  | .error c => .error c
  | .ok (last, out) => .ok { emitChars out s with cur := last }

/-- DECB (R111). -/
def execDecb (n : BitVec 4) (g : Byte) (s : State) : Host.Outcome State Fault Refusal :=
  runCommand (.decb n g) (decodeGroup n g) s

end Sys2Proof.Machine
end

