-- ==== Sys2Proof/Machine/Dispatch.lean ====
section
/-! DEFINITION. One arm per command, each a call of its meaning. -/

namespace Sys2Proof.Machine

def exec (i : Instr) (s : State) : Host.Outcome State Fault Refusal :=
  match i with
  | .reset => Sys2Proof.Machine.execReset s
  | .tclr => Sys2Proof.Machine.execTclr s
  | .ldc len ch code => Sys2Proof.Machine.execLdc len ch code s
  | .tfin => Sys2Proof.Machine.execTfin s
  | .enc ch => Sys2Proof.Machine.execEnc ch s
  | .eflush => Sys2Proof.Machine.execEflush s
  | .decbit bit => Sys2Proof.Machine.execDecbit bit s
  | .decb n g => Sys2Proof.Machine.execDecb n g s
  | .trst => Sys2Proof.Machine.execTrst s

end Sys2Proof.Machine
end

