-- ==== Sys2Proof/Machine/FrontEnd.lean ====
section
/-! DEFINITION. What the block does with each move of its host (spec rules R6, R130, R143, R170). -/

namespace Sys2Proof.Machine

/-- The block's answer to an illegal word (R143 steps 1 and 2, R66): ignored in FAULTED, else IllegalCommand. -/
def rejectWord (w : Word) (s : State) : State :=
  if s.err then s else faultEntry .illegalCommand w s

/-- A word issued by the host (R143): a legal one is its command, an illegal one is rejected. -/
def issue (w : Word) (s : State) : Host.Outcome State Fault Refusal :=
  match decode w with
  | .error _ => .next (rejectWord w s)
  | .ok i => exec i s

/-- One move of the host (R6, R130): a register read changes nothing, its value is `readPort` (DEDUCED,
safe; log entry 15); `rst` during a command is `rst` in its place (DEDUCED, safe; log entry 4). -/
def perform (m : HostMove) (s : State) : Host.Outcome State Fault Refusal :=
  match m with
  | .command w => issue w s
  | .reset => .next (resetBlock s)
  | .read _ => .next s

/-- The next move of the host, taken off the pending ones; with none pending nothing changes (R152)
(DESIGN CHOICE, safe; log entry 1). -/
def takeMove (s : State) : Host.Outcome State Fault Refusal :=
  match s.input with
  | [] => .next s
  | m :: rest => perform m { s with input := rest }

/-- `w` as the host's very next move. -/
def offerWord (w : Word) (s : State) : State := { s with input := .command w :: s.input }

end Sys2Proof.Machine
end

