-- ==== Sys2Proof/Machine/Step.lean ====
section
/-! DEFINITION. One step: the host's next move, performed whole (spec rules R7, R45). -/

namespace Sys2Proof.Machine

/-- One atomic step (R7): the host's next move. -/
def step (s : State) : Host.Outcome State Fault Refusal := takeMove s

/-- `s` with the word offered as the host's very next move: the block fetches nothing (R20)
(DESIGN CHOICE, safe; log entry 2). -/
def State.withFetchWord (s : State) (nbits w : Nat) : State := offerWord (tableWord nbits w) s

end Sys2Proof.Machine
end

