-- ==== Sys2Proof/Machine/HostSide.lean ====
section
/-! DEFINITION. The host's side (spec rules R67, R68, R120 to R128): the pseudo-commands as lists of commands,
and the software the host runs before it drives the block. Nothing here is state or behaviour of the block. -/

namespace Sys2Proof.Machine

/-- A bit-string read as a binary number, first path bit most significant (R63). -/
def bitsValue (bs : List Bool) : Nat := bs.foldl (fun v b => 2 * v + b.toNat) 0

/-- `LDC c, "bs"` (R67); a bit-string longer than 15 is an assembly error. -/
def assembleLdc (c : Ch) (bs : List Bool) : Option Instr :=
  if bs.length ≤ Config.maxLen then
    some (.ldc (BitVec.ofNat 4 bs.length) c (BitVec.ofNat 15 (bitsValue bs)))
  else none

/-- The LDC commands of a table, in the order written (R68). -/
def loadPairs : List (Ch × List Bool) → Option (List Instr)
  | [] => some []
  | (c, bs) :: rest =>
    match assembleLdc c bs, loadPairs rest with
    | some i, some is => some (i :: is)
    | _, _ => none

/-- LDTAB (R68). -/
def ldtab (table : List (Ch × List Bool)) : Option (List Instr) :=
  match loadPairs table with
  | some is => some (.tclr :: is ++ [.tfin])
  | none => none

/-- ENCS (R68). -/
def encs (text : List Ch) : List Instr := text.map .enc

/-- ENCODE (R68): one pack session (R102). -/
def encodeSession (text : List Ch) : List Instr := encs text ++ [.eflush]

/-- `DECBYTE g` (R68). -/
def decbyte (g : Byte) : Instr := .decb 8 g

/-- The DECB commands of a stream of k groups that holds `bits` real bits (R113, R128): 8 bits of every group but
the last. R68 and R128 demand 8(k - 1) < bits ≤ 8k and do not say what a host sends that breaks this: there is then
no list of commands (DESIGN CHOICE, safe; log entry 18). -/
def decodeStream : List Byte → Nat → Option (List Instr)
  | [], _ => none
  | [g], bits => if 1 ≤ bits ∧ bits ≤ 8 then some [.decb (BitVec.ofNat 4 bits) g] else none
  | g :: g' :: gs, bits => (decodeStream (g' :: gs) (bits - 8)).map fun is => decbyte g :: is

/-- DECS (R68): a decode that begins at the root. -/
def decs (groups : List Byte) (bits : Nat) : Option (List Instr) :=
  (decodeStream groups bits).map fun is => .trst :: is

/-- A node of the host's tree, with its weight (R122). -/
inductive HostTree where
  | leaf (c : Ch) (weight : Nat)
  | node (weight : Nat) (l r : HostTree)
  deriving DecidableEq, Repr

/-- The weight a node carries (R122). -/
def HostTree.weight : HostTree → Nat
  | .leaf _ w => w
  | .node w _ _ => w

/-- One more occurrence of `c` (R121). -/
def addOccurrence (c : Ch) : List (Ch × Nat) → List (Ch × Nat)
  | [] => [(c, 1)]
  | (d, n) :: t => if c = d then (d, n + 1) :: t else (d, n) :: addOccurrence c t

/-- The frequency counter (R121): each distinct character once, with its number of occurrences. R121's mapping is
unordered (U5): that this list has the characters in the order of their first occurrence is the model's
(DESIGN CHOICE, safe; log entry 17). -/
def frequencies (message : List Ch) : List (Ch × Nat) :=
  message.foldl (fun t c => addOccurrence c t) []

/-- The positions of the trees of least weight (R122). -/
def leastPositions (q : List HostTree) : List Nat :=
  (List.range q.length).filter fun i =>
    match q[i]? with
    | some t => q.all fun u => decide (t.weight ≤ u.weight)
    | none => false

/-- Extract a tree of least weight; among equal weights `tiebreak` chooses, any way it likes (R123, U1)
(DESIGN CHOICE, safe; log entry 10). -/
def extractLeast (tiebreak : List HostTree → Nat) (q : List HostTree) : Option (HostTree × List HostTree) :=
  let least := leastPositions q
  match least[tiebreak q % least.length]? with
  | some i => (q[i]?).map fun t => (t, q.eraseIdx i)
  | none => none

/-- Merge until one tree is left (R122): first extracted left, second right, the merged tree reinserted. -/
def mergeTrees (tiebreak : List HostTree → Nat) : Nat → List HostTree → Option HostTree
  | _, [] => none
  | _, [t] => some t
  | 0, _ :: _ :: _ => none
  | n + 1, q =>
    match extractLeast tiebreak q with
    | none => none
    | some (a, q') =>
      match extractLeast tiebreak q' with
      | none => none
      | some (b, q'') => mergeTrees tiebreak n (q'' ++ [.node (a.weight + b.weight) a b])

/-- The host's Huffman tree (R122); none for an empty frequency table, the host's InvalidInput (R126). -/
def buildTree (tiebreak : List HostTree → Nat) (freq : List (Ch × Nat)) : Option HostTree :=
  mergeTrees tiebreak freq.length (freq.map fun e => .leaf e.1 e.2)

/-- The path to every leaf, '0' for left and '1' for right (R124), the leaves from left to right. -/
def HostTree.paths : HostTree → List (Ch × List Bool)
  | .leaf c _ => [(c, [])]
  | .node _ l r =>
    l.paths.map (fun e => (e.1, false :: e.2)) ++ r.paths.map (fun e => (e.1, true :: e.2))

/-- Code generation (R124); a lone leaf gets the code "0" (R125, D33). The code table is a mapping without an order
(U5): that this list has the leaves from left to right is the model's (DESIGN CHOICE, safe; log entry 17). -/
def HostTree.codes : HostTree → List (Ch × List Bool)
  | .leaf c _ => [(c, [false])]
  | .node w l r => (HostTree.node w l r).paths

/-- The sum over all leaves of depth times weight (R122, R131). -/
def HostTree.pathLength : Nat → HostTree → Nat
  | depth, .leaf _ w => depth * w
  | depth, .node _ l r => l.pathLength (depth + 1) + r.pathLength (depth + 1)

/-- The code table of a frequency mapping, its entries in any order (R127 step 2). -/
def codeTable (tiebreak : List HostTree → Nat) (freq : List (Ch × Nat)) : Option (List (Ch × List Bool)) :=
  (buildTree tiebreak freq).map HostTree.codes

/-- The code table the host gives the block for a message (R127 steps 1 and 2). Both orders in it are the model's:
first occurrence for the frequencies, left to right for the pairs, which R127 lets the host load in any order
(DESIGN CHOICE, safe; log entry 17). -/
def hostCodes (tiebreak : List HostTree → Nat) (message : List Ch) : Option (List (Ch × List Bool)) :=
  codeTable tiebreak (frequencies message)

end Sys2Proof.Machine
end

