-- ==== Sys2Proof/Safety.lean ====
section
/-! DEFINITION. The terms claims use: runs (spec rules R190, R191), the bit stream a state has packed (R46 to R49),
paths in the decode tree, and the invariants of R26. -/

namespace Sys2Proof.Machine

/-- Commands executed in order, stopping at the first stop (there is none in a run). -/
def execAll : List Instr → State → Host.Outcome State Fault Refusal
  | [], s => .next s
  | i :: is, s =>
    match exec i s with
    | .next t => execAll is t
    | .fault r => .fault r
    | .refused r => .refused r

/-- Words issued in order (R190). -/
def issueAll : List Word → State → Host.Outcome State Fault Refusal
  | [], s => .next s
  | w :: ws, s =>
    match issue w s with
    | .next t => issueAll ws t
    | .fault r => .fault r
    | .refused r => .refused r

/-- `t` is reached from reset by some moves of the host (R26, R190). -/
def Reachable (t : State) : Prop :=
  ∃ (k : Nat) (moves : List HostMove), Host.Core.run core k { State.reset with input := moves } = .next t

/-- The state after TCLR (R191): no fault, nothing loaded, packer zero, traverser at the root. -/
def Cleared (s : State) : Prop :=
  s.err = false ∧ s.cause = 0 ∧ s.ecmd = 0 ∧ s.trdy = false ∧ s.cur = 0 ∧ s.node = [] ∧ s.nalloc = 1 ∧
    s.clut = [] ∧ s.acc = 0 ∧ s.acnt = 0 ∧ s.psym = false ∧ s.pbits = 0

/-- The bits of a sequence of groups, first stream bit first (R46, R48). -/
def streamBits (groups : List Byte) : List Bool := groups.flatMap byteBits

/-- The bits of the current group packed so far: ACC[ACNT-1], ..., ACC[0] (R11). -/
def pendingBits (s : State) : List Bool := (byteBits s.acc).drop (8 - s.acnt.toNat)

/-- Every bit packed since reset or not yet emitted (R11, R48). -/
def packedBits (s : State) : List Bool := streamBits s.outb ++ pendingBits s

/-- The concatenated codes of a message (R99, R102). -/
def messageBits (s : State) (text : List Ch) : List Bool := text.flatMap fun c => codeBits (clutAt s.clut c)

/-- The node a path leads to, following links only (R17, R26). -/
def follow (t : List (Nat × Node)) (cur : NodeIdx) : List Bool → Option NodeIdx
  | [] => some cur
  | b :: bs => if (nodeAt t cur).child b = 0 then none else follow t ((nodeAt t cur).child b) bs

/-- Every CLUT entry is a code of 1 to 15 bits with no bit above its length, or (0, 0, 0) (R19). -/
structure EntryInv (s : State) : Prop where
  codeFits : ∀ c, (clutAt s.clut c).valid = true →
    1 ≤ (clutAt s.clut c).len.toNat ∧ (clutAt s.clut c).code >>> (clutAt s.clut c).len.toNat = 0
  invalidZero : ∀ c, (clutAt s.clut c).valid = false → clutAt s.clut c = noCode

/-- R26 (h), (i), (j), and that no bit is held while no session is open (DEDUCED, safe; log entry 16). -/
structure PackerInv (s : State) : Prop where
  highZero : s.acc.toNat < 2 ^ s.acnt.toNat
  loadingZero : s.phase = .loading → s.acc = 0 ∧ s.acnt = 0 ∧ s.psym = false ∧ s.pbits = 0
  openCount : s.psym = true → 1 ≤ s.pbits.toNat ∧ s.acnt.toNat = s.pbits.toNat % 8
  closedEmpty : s.psym = false → s.acc = 0 ∧ s.acnt = 0

/-- R26 (k) and R141: the fault registers are 0 without a fault, and CAUSE names one of seven causes with one. -/
structure FaultInv (s : State) : Prop where
  noneRecorded : s.err = false → s.cause = 0 ∧ s.ecmd = 0
  causeNamed : s.err = true → 1 ≤ s.cause.toNat ∧ s.cause.toNat ≤ 7

/-- R26 (a), (b), (c), (d), (g) and R17: the allocated records are a tree rooted at 0, and the traverser is at
the root or an allocated INTERNAL node; with what every step needs to keep them (DEDUCED, safe; log entry 16). -/
structure TreeInv (s : State) : Prop where
  allocRange : 1 ≤ s.nalloc.toNat ∧ s.nalloc.toNat ≤ 512
  childRange : ∀ i b, (nodeAt s.node i).tag = .internal → (nodeAt s.node i).child b = 0 ∨
    (i.toNat < ((nodeAt s.node i).child b).toNat ∧ ((nodeAt s.node i).child b).toNat < s.nalloc.toNat)
  hasChild : ∀ i, (nodeAt s.node i).tag = .internal → (nodeAt s.node i).l ≠ 0 ∨ (nodeAt s.node i).r ≠ 0
  oneParent : ∀ i j a b, (nodeAt s.node i).child a = (nodeAt s.node j).child b →
    (nodeAt s.node i).child a ≠ 0 → i = j ∧ a = b
  hasParent : ∀ j : NodeIdx, 0 < j.toNat → j.toNat < s.nalloc.toNat → ∃ i b, (nodeAt s.node i).child b = j
  rootNotLeaf : (nodeAt s.node 0).tag ≠ .leaf
  rootEmpty : (nodeAt s.node 0).tag = .empty ↔ s.nalloc = 1
  tagged : ∀ i : NodeIdx, 0 < i.toNat → i.toNat < s.nalloc.toNat → (nodeAt s.node i).tag ≠ .empty
  links : ∀ i, (nodeAt s.node i).tag ≠ .internal → (nodeAt s.node i).l = 0 ∧ (nodeAt s.node i).r = 0
  chars : ∀ i, (nodeAt s.node i).tag ≠ .leaf → (nodeAt s.node i).ch = 0
  unallocated : ∀ i : NodeIdx, s.nalloc.toNat ≤ i.toNat → nodeAt s.node i = emptyNode
  cursor : s.cur = 0 ∨ (s.cur.toNat < s.nalloc.toNat ∧ (nodeAt s.node s.cur).tag = .internal)
  loadingAtRoot : s.phase = .loading → s.cur = 0
  readyRooted : s.trdy = true → (nodeAt s.node 0).tag = .internal

/-- R26 (c), (e), (f): the CLUT and the leaves of the tree are one prefix-free code table. -/
structure CodeInv (s : State) : Prop where
  leafOf : ∀ c, (clutAt s.clut c).valid = true →
    ∃ i, follow s.node 0 (codeBits (clutAt s.clut c)) = some i ∧ nodeAt s.node i = ⟨.leaf, c, 0, 0⟩
  codeOf : ∀ i, (nodeAt s.node i).tag = .leaf → (clutAt s.clut (nodeAt s.node i).ch).valid = true
  oneLeaf : ∀ i j, (nodeAt s.node i).tag = .leaf → (nodeAt s.node j).tag = .leaf →
    (nodeAt s.node i).ch = (nodeAt s.node j).ch → i = j
  prefixFree : ∀ c d, (clutAt s.clut c).valid = true → (clutAt s.clut d).valid = true → c ≠ d →
    ¬ (codeBits (clutAt s.clut c) <+: codeBits (clutAt s.clut d))
  emptyTable : (nodeAt s.node 0).tag = .empty ↔ ∀ c, (clutAt s.clut c).valid = false

/-- All of R26, with the canonical form of both memories. -/
structure Inv (s : State) : Prop where
  memory : Memory.wf s
  entries : EntryInv s
  packer : PackerInv s
  faults : FaultInv s
  tree : TreeInv s
  codes : CodeInv s

/-- The state with a fault of cause code `code` by word `w` recorded and nothing else changed (R150). -/
def recordFault (code : BitVec 4) (w : Word) (s : State) : State :=
  { s with err := true, cause := code, ecmd := w }

/-- Two codes conflict when one is a prefix of the other or they are equal (R91 (a), (b), (c)). -/
def Conflict (p q : List Bool) : Prop := p <+: q ∨ q <+: p

end Sys2Proof.Machine
end

