-- ==== Sys2Proof/Certificates/Slice0/Obligations.lean ====
section
/-! DEFINITION. The statements about the block, from the spec's numbered rules. -/

open Sys2Proof Sys2Proof.Machine

/-! ## Encoding -/

/-- Decoding the word of a well-formed command gives it back, every operand at every value (R60 to R65). -/
def Obligations.DecodeOfEncodeIsTheCommand : Prop :=
  ∀ i : Instr, i.WellFormed → decode (encode i) = .ok i

/-- A legal word is the word of the command it decodes to, which is well-formed (R65: exactly one command). -/
def Obligations.LegalWordIsItsCommandsEncoding : Prop :=
  ∀ (w : Word) (i : Instr), decode w = .ok i → encode i = w ∧ i.WellFormed

/-- R65: a word in a row of the match and mask table whose extra constraint holds is that row's command with the
operands of R62 to R64; every other word is illegal. -/
def Obligations.DecodingFollowsTheMatchMaskTable : Prop :=
  ∀ w : Word,
    (w &&& 0xFFFFFFFF = 0x10000000 → decode w = .ok .reset) ∧
    (w &&& 0xFFFFFFFF = 0x20000000 → decode w = .ok .tclr) ∧
    (w &&& 0xF0008000 = 0x30000000 ∧ w.extractLsb' 0 15 >>> (w.extractLsb' 24 4).toNat = 0 →
      decode w = .ok (.ldc (w.extractLsb' 24 4) (w.extractLsb' 16 8) (w.extractLsb' 0 15))) ∧
    (w &&& 0xFFFFFFFF = 0x40000000 → decode w = .ok .tfin) ∧
    (w &&& 0xFF00FFFF = 0x50000000 → decode w = .ok (.enc (w.extractLsb' 16 8))) ∧
    (w &&& 0xFFFFFFFF = 0x60000000 → decode w = .ok .eflush) ∧
    (w &&& 0xFFFFFFFE = 0x70000000 → decode w = .ok (.decbit (w.getLsbD 0))) ∧
    (w &&& 0xF000FFFF = 0x80000000 ∧ 1 ≤ (w.extractLsb' 24 4).toNat ∧ (w.extractLsb' 24 4).toNat ≤ 8 →
      decode w = .ok (.decb (w.extractLsb' 24 4) (w.extractLsb' 16 8))) ∧
    (w &&& 0xFFFFFFFF = 0x90000000 → decode w = .ok .trst) ∧
    (w &&& 0xFFFFFFFF ≠ 0x10000000 → w &&& 0xFFFFFFFF ≠ 0x20000000 →
      ¬ (w &&& 0xF0008000 = 0x30000000 ∧ w.extractLsb' 0 15 >>> (w.extractLsb' 24 4).toNat = 0) →
      w &&& 0xFFFFFFFF ≠ 0x40000000 → w &&& 0xFF00FFFF ≠ 0x50000000 → w &&& 0xFFFFFFFF ≠ 0x60000000 →
      w &&& 0xFFFFFFFE ≠ 0x70000000 →
      ¬ (w &&& 0xF000FFFF = 0x80000000 ∧ 1 ≤ (w.extractLsb' 24 4).toNat ∧ (w.extractLsb' 24 4).toNat ≤ 8) →
      w &&& 0xFFFFFFFF ≠ 0x90000000 → ∃ e, decode w = .error e)

/-- Words of the table of 95_test_vectors.md section 2.1, one or more for each family. -/
def Obligations.SampleWordsDecodeAsTheSpecLists : Prop :=
  decode 0x10000000 = .ok .reset ∧ decode 0x20000000 = .ok .tclr ∧ decode 0x336D0004 = .ok (.ldc 3 0x6D 4) ∧
  decode 0x3F7A7FFF = .ok (.ldc 15 0x7A 0x7FFF) ∧ decode 0x30610000 = .ok (.ldc 0 0x61 0) ∧
  decode 0x40000000 = .ok .tfin ∧ decode 0x50610000 = .ok (.enc 0x61) ∧ decode 0x60000000 = .ok .eflush ∧
  decode 0x70000001 = .ok (.decbit true) ∧ decode 0x82400000 = .ok (.decb 2 0x40) ∧
  decode 0x90000000 = .ok .trst ∧ decode 0x00000000 = .error .reservedOpcode ∧
  decode 0xFFFFFFFF = .error .reservedOpcode ∧ decode 0x31610002 = .error .codeBeyondLength ∧
  decode 0x89400000 = .error .bitCount ∧ decode 0x50610001 = .error .reservedField

/-- R63: the assembler's LDC of a bit-string of at most 15 bits is well-formed and carries exactly that
bit-string, leading zeros included. -/
def Obligations.AssembledPairCarriesItsBitString : Prop :=
  ∀ (c : Ch) (bs : List Bool), bs.length ≤ 15 → ∃ (len : CodeLen) (code : CodeBits),
    assembleLdc c bs = some (.ldc len c code) ∧ len.toNat = bs.length ∧ pathBits len.toNat code = bs ∧
    (Instr.ldc len c code).WellFormed

/-! ## Reset, the host's moves and the common checks -/

/-- R27: what every piece of the block's state holds after reset, and STATUS as read. -/
def Obligations.ResetLeavesEveryRegisterAtItsValue : Prop :=
  State.reset.acc = 0x00 ∧ State.reset.acnt = 0 ∧ State.reset.psym = false ∧ State.reset.pbits = 0 ∧
  State.reset.trdy = false ∧ State.reset.phase = .loading ∧ State.reset.cur = 0 ∧
  (∀ i, nodeAt State.reset.node i = ⟨.empty, 0, 0, 0⟩) ∧ State.reset.nalloc = 1 ∧
  (∀ c, clutAt State.reset.clut c = ⟨false, 0, 0⟩) ∧ State.reset.err = false ∧ State.reset.cause = 0 ∧
  State.reset.ecmd = 0x00000000 ∧ State.reset.outb = [] ∧ State.reset.outc = [] ∧
  readPort State.reset 0 = 0x00000008

/-- R80: RESET is accepted in every phase and leaves the reset state; a word of opcode 1 with any other bit set is
not RESET: it faults with IllegalCommand in LOADING or READY and is ignored in FAULTED. That the host's moves still
to come stay and that a step takes one off them is the model's choice (log entry 1). -/
def Obligations.ResetCommandResetsTheBlock : Prop :=
  (∀ s : State, exec .reset s = .next { State.reset with input := s.input }) ∧
  (∀ (s : State) (w : Word) (rest : List HostMove), s.input = .command w :: rest →
    w.extractLsb' 28 4 = 1 → w ≠ 0x10000000 →
    (s.err = false → step s = .next { s with input := rest, err := true, cause := 4, ecmd := w }) ∧
    (s.err = true → step s = .next { s with input := rest }))

/-- R170: the input `rst` and the RESET word have the same effect, in every phase. That both are moves in the model's
own field of pending moves is log entries 1 and 4. -/
def Obligations.ResetInputEqualsResetCommand : Prop :=
  ∀ (s : State) (rest : List HostMove),
    step { s with input := .reset :: rest } = .next { State.reset with input := rest } ∧
    step { s with input := .command 0x10000000 :: rest } = .next { State.reset with input := rest }

/-- A step at a legal word runs the decoded command, the word taken off the host's pending moves; nothing else
stands around `exec`. The pending moves are the model's own field (log entry 1). -/
def Obligations.StepRunsTheDecodedCommand : Prop :=
  ∀ (s : State) (w : Word) (rest : List HostMove) (i : Instr),
    s.input = .command w :: rest → decode w = .ok i → step s = exec i { s with input := rest }

/-- R66, R144: an illegal word in LOADING or READY (ERR = 0, R143) faults with IllegalCommand, cause 4; R149, R150:
ECMD is the whole word and nothing else of the block changes. That the step takes the word off the host's pending
moves is the model's choice (log entry 1). -/
def Obligations.IllegalWordFaults : Prop :=
  ∀ (s : State) (w : Word) (rest : List HostMove) (e : IllegalWord),
    s.input = .command w :: rest → s.err = false → decode w = .error e →
    step s = .next { s with input := rest, err := true, cause := 4, ecmd := w }

/-- R143 step 1: in FAULTED every word but 0x10000000 is ignored, legal or not. That the step takes the word off the
host's pending moves is the model's choice (log entry 1). -/
def Obligations.FaultedIgnoresEveryWordButReset : Prop :=
  ∀ (s : State) (w : Word) (rest : List HostMove),
    s.input = .command w :: rest → s.err = true → w ≠ 0x10000000 → step s = .next { s with input := rest }

/-- A register read changes nothing (R24), and with no move pending a step changes nothing (R152). That a step
may find no move pending is the model's own (log entry 1). -/
def Obligations.ReadsAndIdlingChangeNothing : Prop :=
  (∀ (s : State) (raddr : BitVec 3) (rest : List HostMove),
    s.input = .read raddr :: rest → step s = .next { s with input := rest }) ∧
  (∀ s : State, s.input = [] → step s = .next s)

/-- R145, the six SequenceError commands: cause 5, ECMD the command's word, nothing else changed. -/
def Obligations.CommandOutOfPhaseFaults : Prop :=
  ∀ (s : State), s.err = false →
    (s.trdy = true → ∀ len ch code,
      exec (.ldc len ch code) s = .next (recordFault 5 (encode (.ldc len ch code)) s)) ∧
    (s.trdy = true → exec .tfin s = .next (recordFault 5 0x40000000 s)) ∧
    (s.trdy = false → ∀ ch, exec (.enc ch) s = .next (recordFault 5 (encode (.enc ch)) s)) ∧
    (s.trdy = false → exec .eflush s = .next (recordFault 5 0x60000000 s)) ∧
    (s.trdy = false → ∀ bit, exec (.decbit bit) s = .next (recordFault 5 (encode (.decbit bit)) s)) ∧
    (s.trdy = false → ∀ n g, exec (.decb n g) s = .next (recordFault 5 (encode (.decb n g)) s))

/-- R149: a command that faults changes the three fault registers and nothing else, both streams included; its
cause is one of the seven of R141. -/
def Obligations.FaultingCommandChangesOnlyTheFaultRegisters : Prop :=
  ∀ (i : Instr) (s t : State), s.err = false → exec i s = .next t → t.err = true →
    t = { s with err := true, cause := t.cause, ecmd := encode i } ∧ 1 ≤ t.cause.toNat ∧ t.cause.toNat ≤ 7

/-- R150 and R22 at the level of a step: whichever word faults, legal or not, ECMD records the whole word issued
and nothing else of the block changes. The pending moves are the model's own field (log entry 1). -/
def Obligations.FaultRecordsTheWholeWordIssued : Prop :=
  ∀ (s t : State) (w : Word) (rest : List HostMove),
    s.input = .command w :: rest → s.err = false → step s = .next t → t.err = true →
    t = { s with input := rest, err := true, cause := t.cause, ecmd := w }

/-- R151: only RESET or the reset input leaves FAULTED, and both do leave it, to the reset state; until then CAUSE
and ECMD describe the first fault, and nothing of the block changes. The pending moves are the model's own field
(log entry 1). -/
def Obligations.OnlyResetLeavesFaulted : Prop :=
  (∀ (s t : State), s.err = true → step s = .next t →
    (t.err = true ∧ t = { s with input := t.input }) ∨
    (t = { State.reset with input := t.input } ∧
      ∃ rest, s.input = .command 0x10000000 :: rest ∨ s.input = .reset :: rest)) ∧
  (∀ (s : State) (rest : List HostMove), s.err = true →
    s.input = .command 0x10000000 :: rest ∨ s.input = .reset :: rest →
    step s = .next { State.reset with input := rest })

/-- R189, R190: every step ends in a next state; the block has no halt, no hang and no stuck state. That a step with
no move pending ends in the same state is the model's choice (log entry 1). -/
def Obligations.EveryStepEndsInANextState : Prop :=
  ∀ s : State, ∃ t, step s = .next t

/-- R24: the registers the read port shows, STATUS bit by bit. -/
def Obligations.ReadPortShowsTheRegisters : Prop :=
  ∀ s : State,
    (readPort s 0).getLsbD 0 = s.err ∧ (readPort s 0).getLsbD 1 = s.trdy ∧ (readPort s 0).getLsbD 2 = s.psym ∧
    (readPort s 0).getLsbD 3 = decide (s.cur = 0) ∧ (readPort s 0).extractLsb' 4 3 = s.acnt ∧
    (readPort s 0).getLsbD 7 = false ∧ (readPort s 0).extractLsb' 8 4 = s.cause ∧
    (readPort s 0).extractLsb' 12 20 = 0 ∧ readPort s 1 = s.pbits ∧ readPort s 2 = s.ecmd ∧
    (readPort s 3).extractLsb' 0 9 = s.cur ∧ (readPort s 3).extractLsb' 9 23 = 0 ∧
    (readPort s 4).extractLsb' 0 10 = s.nalloc ∧ (readPort s 4).extractLsb' 10 22 = 0 ∧
    readPort s 5 = 0 ∧ readPort s 6 = 0 ∧ readPort s 7 = 0

/-! ## The commands -/

/-- R81: in LOADING and READY, TCLR clears table, tree, traverser and packer and nothing else. -/
def Obligations.TclrClearsTableTreeTraverserAndPacker : Prop :=
  ∀ s : State, s.err = false →
    exec .tclr s = .next { s with
      clut := [], node := [], nalloc := 1, trdy := false, cur := 0
      acc := 0, acnt := 0, psym := false, pbits := 0 } ∧
    (∀ c, clutAt ([] : List (Nat × ClutEntry)) c = ⟨false, 0, 0⟩) ∧
    (∀ i, nodeAt ([] : List (Nat × Node)) i = ⟨.empty, 0, 0, 0⟩)

/-- R82: in LOADING, TFIN sets TRDY and places the traverser at the root, nothing else; an empty table is
InvalidCodeTable; in READY it is SequenceError. -/
def Obligations.TfinMakesTheTableReadyOrRefusesAnEmptyOne : Prop :=
  ∀ s : State, s.err = false →
    (s.trdy = false → (nodeAt s.node 0).tag ≠ .empty →
      exec .tfin s = .next { s with trdy := true, cur := 0 }) ∧
    (s.trdy = false → (nodeAt s.node 0).tag = .empty → exec .tfin s = .next (recordFault 3 0x40000000 s)) ∧
    (s.trdy = true → exec .tfin s = .next (recordFault 5 0x40000000 s))

/-- R83: in LOADING and READY, TRST returns the traverser to the root and changes nothing else. -/
def Obligations.TrstReturnsTheTraverserToTheRoot : Prop :=
  ∀ s : State, s.err = false → exec .trst s = .next { s with cur := 0 }

/-- R92, the effect: where phase 1 stops at `stop` with path bits `b :: bs` left and the arena has room, LDC writes
the CLUT entry, links `stop` to the first new record, makes every new record but the last the branch to the next,
makes the last the leaf of `ch`, and changes nothing else. -/
def Obligations.LdcAddsTheRestOfThePath : Prop :=
  ∀ (s : State) (len : CodeLen) (ch : Ch) (code : CodeBits) (stop : NodeIdx) (b : Bool) (bs : List Bool),
    s.err = false → s.trdy = false → len ≠ 0 → (clutAt s.clut ch).valid = false →
    descend s.node 0 (pathBits len.toNat code) = .ok (stop, b :: bs) →
    s.nalloc.toNat + (b :: bs).length ≤ 512 →
    ∃ t, exec (.ldc len ch code) s = .next t ∧
      t = { s with node := t.node, nalloc := t.nalloc, clut := t.clut } ∧
      t.nalloc.toNat = s.nalloc.toNat + (b :: bs).length ∧
      (∀ d, clutAt t.clut d = if d = ch then ⟨true, len, code⟩ else clutAt s.clut d) ∧
      (∀ i : NodeIdx, i.toNat < s.nalloc.toNat ∨ s.nalloc.toNat + (b :: bs).length ≤ i.toNat →
        nodeAt t.node i =
          if i = stop then (nodeAt s.node stop).withChild b (BitVec.ofNat 9 s.nalloc.toNat)
          else nodeAt s.node i) ∧
      (∀ (j : Nat) (c : Bool), bs[j]? = some c → nodeAt t.node (BitVec.ofNat 9 (s.nalloc.toNat + j)) =
        (⟨.internal, 0, 0, 0⟩ : Node).withChild c (BitVec.ofNat 9 (s.nalloc.toNat + j + 1))) ∧
      nodeAt t.node (BitVec.ofNat 9 (s.nalloc.toNat + bs.length)) = ⟨.leaf, ch, 0, 0⟩

/-- R90: after an LDC that succeeds in a state where the arena is a tree (`TreeInv`, with log entry 16), the path of
the code leads from the root to the leaf of the character, and every path the tree had leads where it led. -/
def Obligations.LdcPutsTheLeafAtTheEndOfItsPath : Prop :=
  ∀ (s t : State) (len : CodeLen) (ch : Ch) (code : CodeBits), TreeInv s → s.err = false →
    exec (.ldc len ch code) s = .next t → t.err = false →
    (∃ i, follow t.node 0 (pathBits len.toNat code) = some i ∧ nodeAt t.node i = ⟨.leaf, ch, 0, 0⟩) ∧
    (∀ p i, follow s.node 0 p = some i → follow t.node 0 p = some i)

/-- R91 (d), (e): LDC of an empty code, or of a character that already has a code, is InvalidCodeTable. -/
def Obligations.LdcRejectsEmptyCodeAndRepeatedCharacter : Prop :=
  ∀ (s : State) (len : CodeLen) (ch : Ch) (code : CodeBits), s.err = false → s.trdy = false →
    len = 0 ∨ (clutAt s.clut ch).valid = true →
    exec (.ldc len ch code) s = .next (recordFault 3 (encode (.ldc len ch code)) s)

/-- R91 (a), (b), (c): LDC of a code that is a prefix of a loaded code, has one as a prefix, or equals one is
InvalidCodeTable, in every state that satisfies R26 (`Inv`, with log entries 5 and 16). -/
def Obligations.LdcRejectsEveryConflictingCode : Prop :=
  ∀ (s : State) (len : CodeLen) (ch d : Ch) (code : CodeBits), Inv s → s.err = false → s.trdy = false →
    (clutAt s.clut d).valid = true → Conflict (codeBits (clutAt s.clut d)) (pathBits len.toNat code) →
    exec (.ldc len ch code) s = .next (recordFault 3 (encode (.ldc len ch code)) s)

/-- R91, R92: in every state that satisfies R26 (`Inv`, with log entries 5 and 16), LDC of a non-empty code for a new
character that conflicts with no loaded code succeeds when `len` records are free. -/
def Obligations.LdcAcceptsEveryConflictFreePair : Prop :=
  ∀ (s : State) (len : CodeLen) (ch : Ch) (code : CodeBits), Inv s → s.err = false → s.trdy = false →
    len ≠ 0 → (clutAt s.clut ch).valid = false →
    (∀ d, (clutAt s.clut d).valid = true →
      ¬ Conflict (codeBits (clutAt s.clut d)) (pathBits len.toNat code)) →
    s.nalloc.toNat + len.toNat ≤ 512 →
    ∃ t, exec (.ldc len ch code) s = .next t ∧ t.err = false ∧ clutAt t.clut ch = ⟨true, len, code⟩ ∧
      s.nalloc.toNat < t.nalloc.toNat ∧ t.nalloc.toNat ≤ s.nalloc.toNat + len.toNat

/-- R146, first case: LDC that needs more records than the arena has left is CapacityExceeded. -/
def Obligations.LdcFaultsWhenTheArenaIsFull : Prop :=
  ∀ (s : State) (len : CodeLen) (ch : Ch) (code : CodeBits) (stop : NodeIdx) (b : Bool) (bs : List Bool),
    s.err = false → s.trdy = false → len ≠ 0 → (clutAt s.clut ch).valid = false →
    descend s.node 0 (pathBits len.toNat code) = .ok (stop, b :: bs) →
    512 < s.nalloc.toNat + (b :: bs).length →
    exec (.ldc len ch code) s = .next (recordFault 6 (encode (.ldc len ch code)) s)

/-- R100, the effect: in READY, ENC of a character with a code appends exactly that code's bits to the packed
stream, emitting a group for every eight bits held; PBITS counts them from 0 in a new session; PSYM is set. -/
def Obligations.EncAppendsTheCodeOfItsCharacter : Prop :=
  ∀ (s : State) (ch : Ch), s.err = false → s.trdy = true → (clutAt s.clut ch).valid = true →
    (if s.psym then s.pbits.toNat else 0) + (clutAt s.clut ch).len.toNat ≤ 4294967295 →
    ∃ t, exec (.enc ch) s = .next t ∧
      t = { s with acc := t.acc, acnt := t.acnt, psym := true, pbits := t.pbits, outb := t.outb } ∧
      t.pbits.toNat = (if s.psym then s.pbits.toNat else 0) + (clutAt s.clut ch).len.toNat ∧
      t.acnt.toNat = (s.acnt.toNat + (clutAt s.clut ch).len.toNat) % 8 ∧
      (∃ groups, t.outb = s.outb ++ groups ∧
        groups.length = (s.acnt.toNat + (clutAt s.clut ch).len.toNat) / 8) ∧
      packedBits t = packedBits s ++ codeBits (clutAt s.clut ch) ∧
      (s.acc.toNat < 2 ^ s.acnt.toNat → t.acc.toNat < 2 ^ t.acnt.toNat)

/-- R156 and R146, second case: in READY, ENC of a character without a code is MissingCode; one that would take
the bit count past 2^32 - 1 is CapacityExceeded; neither changes anything else. -/
def Obligations.EncFaultsOnMissingCodeOrFullCounter : Prop :=
  ∀ (s : State) (ch : Ch), s.err = false → s.trdy = true →
    ((clutAt s.clut ch).valid = false → exec (.enc ch) s = .next (recordFault 2 (encode (.enc ch)) s)) ∧
    ((clutAt s.clut ch).valid = true →
      4294967295 < (if s.psym then s.pbits.toNat else 0) + (clutAt s.clut ch).len.toNat →
      exec (.enc ch) s = .next (recordFault 6 (encode (.enc ch)) s))

/-- R101: in READY, EFLUSH of an open session emits the last partial group, its valid bits at the high-order end,
or nothing where no bit is held, and closes the session without writing PBITS; with no session open it is
InvalidInput; in LOADING it is SequenceError. -/
def Obligations.EflushEmitsThePaddedGroupAndClosesTheSession : Prop :=
  ∀ s : State, s.err = false →
    (s.trdy = true → s.psym = true → s.acnt ≠ 0 → exec .eflush s = .next { s with
      acc := 0, acnt := 0, psym := false, outb := s.outb ++ [s.acc <<< (8 - s.acnt.toNat)] }) ∧
    (s.trdy = true → s.psym = true → s.acnt = 0 →
      exec .eflush s = .next { s with acc := 0, acnt := 0, psym := false }) ∧
    (s.trdy = true → s.psym = false → exec .eflush s = .next (recordFault 1 0x60000000 s)) ∧
    (s.trdy = false → exec .eflush s = .next (recordFault 5 0x60000000 s))

/-- R110: in READY, DECBIT moves to the child the bit selects: to a node that is no leaf and stays there, or to a
leaf, whose character it emits, and back to the root; without that child it is InvalidPath. ATROOT reads 1 exactly
when a character was emitted. In LOADING it is SequenceError. -/
def Obligations.DecbitMovesOrEmitsOrFaults : Prop :=
  ∀ (s : State) (bit : Bool) (nxt : NodeIdx), s.err = false →
    nxt = (if bit then (nodeAt s.node s.cur).r else (nodeAt s.node s.cur).l) →
    (s.trdy = true → nxt ≠ 0 → (nodeAt s.node nxt).tag = .leaf →
      exec (.decbit bit) s = .next { s with cur := 0, outc := s.outc ++ [(nodeAt s.node nxt).ch] }) ∧
    (s.trdy = true → nxt ≠ 0 → (nodeAt s.node nxt).tag ≠ .leaf →
      exec (.decbit bit) s = .next { s with cur := nxt }) ∧
    (s.trdy = true → nxt = 0 → exec (.decbit bit) s = .next (recordFault 7 (encode (.decbit bit)) s)) ∧
    (s.trdy = false → exec (.decbit bit) s = .next (recordFault 5 (encode (.decbit bit)) s)) ∧
    (∀ t, exec (.decbit bit) s = .next t → t.err = false →
      (t.atRoot = true ↔ ∃ c, t.outc = s.outc ++ [c]))

/-- R111: in READY, DECB makes the `n` moves of the most significant bits of the group, emits the characters they
complete in stream order and leaves the traverser where the last move took it; where one move has no child to go
to it is InvalidPath and nothing else happens. -/
def Obligations.DecbWalksTheLeadingBitsOrFaults : Prop :=
  ∀ (s : State) (n : BitVec 4) (g : Byte), s.err = false → s.trdy = true →
    (∀ last out, walk s.node s.cur (groupBits n g) = .ok (last, out) →
      exec (.decb n g) s = .next { s with cur := last, outc := s.outc ++ out } ∧ out.length ≤ n.toNat) ∧
    (∀ c, walk s.node s.cur (groupBits n g) = .error c →
      exec (.decb n g) s = .next (recordFault 7 (encode (.decb n g)) s))

/-- R111 corner case 1: DECB has exactly the effect of the DECBITs of its bits when none of them faults, and when
one faults both end FAULTED with cause 7. -/
def Obligations.DecbEqualsItsDecbits : Prop :=
  ∀ (s : State) (n : BitVec 4) (g : Byte), s.err = false → s.trdy = true →
    (∀ t, t.err = false →
      (exec (.decb n g) s = .next t ↔ execAll ((groupBits n g).map .decbit) s = .next t)) ∧
    (∀ t, exec (.decb n g) s = .next t → t.err = true →
      t.cause = 7 ∧ ∃ u, execAll ((groupBits n g).map .decbit) s = .next u ∧ u.err = true ∧ u.cause = 7)

/-! ## Frames and whole-machine rules -/

/-- R92: what LDC leaves unchanged, whether it succeeds or faults: every register but NALLOC and the fault
registers, both streams, every CLUT entry but its character's, and every node but the one where its path leaves
the tree and the records it allocates. -/
def Obligations.LdcFrame : Prop :=
  ∀ (s t : State) (len : CodeLen) (ch : Ch) (code : CodeBits), exec (.ldc len ch code) s = .next t →
    t = { s with
      node := t.node, nalloc := t.nalloc, clut := t.clut, err := t.err, cause := t.cause, ecmd := t.ecmd } ∧
    (∀ d, d ≠ ch → clutAt t.clut d = clutAt s.clut d) ∧
    (∀ stop rest, descend s.node 0 (pathBits len.toNat code) = .ok (stop, rest) → ∀ i : NodeIdx, i ≠ stop →
      i.toNat < s.nalloc.toNat ∨ s.nalloc.toNat + rest.length ≤ i.toNat →
      nodeAt t.node i = nodeAt s.node i) ∧
    (∀ stop rest, descend s.node 0 (pathBits len.toNat code) = .ok (stop, rest) →
      (nodeAt t.node stop).ch = (nodeAt s.node stop).ch ∨ s.nalloc.toNat ≤ stop.toNat) ∧
    (∀ c, descend s.node 0 (pathBits len.toNat code) = .error c → t.node = s.node ∧ t.clut = s.clut)

/-- R54: ENC and EFLUSH touch only ACC, ACNT, PSYM, PBITS and OUTB, and the fault registers where they fault;
both memories are unchanged, EFLUSH leaves PBITS too. -/
def Obligations.PackCommandsFrame : Prop :=
  ∀ (s t : State) (i : Instr), (i = .eflush ∨ ∃ ch, i = .enc ch) → exec i s = .next t →
    t = { s with
      acc := t.acc, acnt := t.acnt, psym := t.psym, pbits := t.pbits, outb := t.outb
      err := t.err, cause := t.cause, ecmd := t.ecmd } ∧
    (i = .eflush → t.pbits = s.pbits)

/-- R54: DECBIT, DECB and TRST touch only CUR and OUTC (TRST only CUR), and the fault registers where they fault;
both memories are unchanged. -/
def Obligations.DecodeCommandsFrame : Prop :=
  ∀ (s t : State) (i : Instr), (i = .trst ∨ (∃ bit, i = .decbit bit) ∨ ∃ n g, i = .decb n g) →
    exec i s = .next t →
    t = { s with cur := t.cur, outc := t.outc, err := t.err, cause := t.cause, ecmd := t.ecmd } ∧
    (i = .trst → t.outc = s.outc ∧ t.err = s.err ∧ t.cause = s.cause ∧ t.ecmd = s.ecmd)

/-- R81, R82: TFIN touches only TRDY and CUR, and the fault registers where it faults; TCLR leaves both streams
and the fault registers. That neither touches the host's pending moves is the model's choice (log entry 1). -/
def Obligations.TableControlFrame : Prop :=
  ∀ s t : State,
    (exec .tfin s = .next t →
      t = { s with trdy := t.trdy, cur := t.cur, err := t.err, cause := t.cause, ecmd := t.ecmd }) ∧
    (exec .tclr s = .next t → t.outb = s.outb ∧ t.outc = s.outc ∧ t.err = s.err ∧ t.cause = s.cause ∧
      t.ecmd = s.ecmd ∧ t.input = s.input)

/-- R54, D30: in READY a pack command and a decode command that both succeed may be interleaved freely: in either
order they end in the same state. -/
def Obligations.PackAndDecodeCommandsCommute : Prop :=
  ∀ (s a b : State) (p d : Instr), (p = .eflush ∨ ∃ ch, p = .enc ch) →
    (d = .trst ∨ (∃ bit, d = .decbit bit) ∨ ∃ n g, d = .decb n g) → s.err = false → s.trdy = true →
    exec p s = .next a → a.err = false → exec d s = .next b → b.err = false →
    ∃ t, execAll [p, d] s = .next t ∧ execAll [d, p] s = .next t ∧ t.err = false

/-- R25: which commands set and clear the stored flags, over all nine. -/
def Obligations.OnlyTheNamedCommandsSetAndClearFlags : Prop :=
  ∀ (i : Instr) (s t : State), exec i s = .next t →
    (s.err = true → t.err = false → i = .reset) ∧
    (s.trdy = false → t.trdy = true → i = .tfin) ∧
    (s.trdy = true → t.trdy = false → i = .tclr ∨ i = .reset) ∧
    (s.psym = false → t.psym = true → ∃ ch, i = .enc ch) ∧
    (s.psym = true → t.psym = false → i = .eflush ∨ i = .tclr ∨ i = .reset)

/-- R11, R12, R15, R16, R17, R18, R19, R22: which commands write each register and memory, over all nine; CAUSE and
ECMD are written by a fault where none is recorded, and by RESET. That no command touches the host's pending moves is
the model's choice (log entry 1). -/
def Obligations.OnlyTheNamedCommandsWriteEachRegister : Prop :=
  ∀ (i : Instr) (s t : State), exec i s = .next t →
    (t.acc ≠ s.acc ∨ t.acnt ≠ s.acnt → (∃ ch, i = .enc ch) ∨ i = .eflush ∨ i = .tclr ∨ i = .reset) ∧
    (t.pbits ≠ s.pbits → (∃ ch, i = .enc ch) ∨ i = .tclr ∨ i = .reset) ∧
    (t.cur ≠ s.cur → (∃ bit, i = .decbit bit) ∨ (∃ n g, i = .decb n g) ∨ i = .trst ∨ i = .tfin ∨ i = .tclr ∨
      i = .reset) ∧
    (t.node ≠ s.node ∨ t.nalloc ≠ s.nalloc ∨ t.clut ≠ s.clut →
      (∃ len ch code, i = .ldc len ch code) ∨ i = .tclr ∨ i = .reset) ∧
    (t.ecmd ≠ s.ecmd ∨ t.cause ≠ s.cause → (s.err = false ∧ t.err = true) ∨ i = .reset) ∧
    t.input = s.input

/-- R23: both streams are append-only; only RESET empties them. -/
def Obligations.OutputStreamsAreAppendOnly : Prop :=
  ∀ (i : Instr) (s t : State), i ≠ .reset → exec i s = .next t →
    ∃ groups chars, t.outb = s.outb ++ groups ∧ t.outc = s.outc ++ chars

/-- R53: in READY no command but TCLR and RESET changes the table or the tree. -/
def Obligations.TableIsReadOnlyWhenReady : Prop :=
  ∀ (i : Instr) (s t : State), s.trdy = true → i ≠ .tclr → i ≠ .reset → exec i s = .next t →
    t.node = s.node ∧ t.nalloc = s.nalloc ∧ t.clut = s.clut ∧ t.trdy = true

/-! ## Invariants -/

/-- The canonical form of the lists that hold CLUT and NODE (the model's own, log entry 5) is kept by every step. -/
def Obligations.StepKeepsMemoryCanonical : Prop :=
  ∀ s t : State, Memory.wf s → step s = .next t → Memory.wf t

/-- R19: every CLUT entry stays a code of 1 to 15 bits with no bit above its length, or (0, 0, 0). -/
def Obligations.StepKeepsClutEntriesWellFormed : Prop :=
  ∀ s t : State, EntryInv s → step s = .next t → EntryInv t

/-- R26 (h), (i), (j), and that no bit is held while no session is open (log entry 16): kept by every step. -/
def Obligations.StepKeepsPackerInvariant : Prop :=
  ∀ s t : State, EntryInv s → PackerInv s → step s = .next t → PackerInv t

/-- R26 (k), and that CAUSE is one of the seven of R141 where ERR = 1 (log entry 16): kept by every step. -/
def Obligations.StepKeepsFaultRegistersInvariant : Prop :=
  ∀ s t : State, FaultInv s → step s = .next t → FaultInv t

/-- R26 (a), (b), (c), (d), (g), with what a step needs to keep them (log entry 16): the arena stays a tree rooted at
0 with the traverser on a branch point of it. -/
def Obligations.StepKeepsTheArenaATree : Prop :=
  ∀ s t : State, TreeInv s → step s = .next t → TreeInv t

/-- R26 (e), (f), R94: the CLUT and the tree stay one prefix-free code table (`TreeInv`, with log entry 16). -/
def Obligations.StepKeepsTheCodeTablePrefixFree : Prop :=
  ∀ s t : State, EntryInv s → TreeInv s → CodeInv s → step s = .next t → CodeInv t

/-- R191: the reset state satisfies the invariants of R26 (`Inv`, with log entries 5 and 16). -/
def Obligations.ResetStateSatisfiesTheInvariants : Prop := Inv State.reset

/-- R26 as the spec derives it: every step keeps the invariants, and so they hold in every state reached from reset
by any moves of the host. `Inv` is R26 (a) to (k) with two things of the model's own: the canonical form of the lists
that hold CLUT and NODE (log entry 5) and what a step needs beyond R26 (log entry 16). -/
def Obligations.ReachableStatesSatisfyTheInvariants : Prop :=
  (∀ s t : State, Inv s → step s = .next t → Inv t) ∧ (∀ t : State, Reachable t → Inv t)

/-! ## Laws of the packer, the decoder and the pair -/

/-- R102, which the spec derives: a pack session from READY with no session open and no bit held appends the
concatenated codes, cut into groups and padded with zeros, and leaves their number in PBITS. R102 has PSYM = 0 alone;
that ACNT is then 0 is an invariant the model adds to R26 (log entry 16), here a premise. -/
def Obligations.SessionPacksTheConcatenatedCodes : Prop :=
  ∀ (s : State) (text : List Ch), s.err = false → s.trdy = true → s.psym = false → s.acnt = 0 → text ≠ [] →
    (∀ c ∈ text, (clutAt s.clut c).valid = true) → (messageBits s text).length ≤ 4294967295 →
    ∃ t groups, execAll (encodeSession text) s = .next t ∧ t.err = false ∧ t.psym = false ∧
      t.outb = s.outb ++ groups ∧ groups.length = ((messageBits s text).length + 7) / 8 ∧
      streamBits groups =
        messageBits s text ++ List.replicate (8 * groups.length - (messageBits s text).length) false ∧
      t.pbits.toNat = (messageBits s text).length

/-- R113, which the spec derives: in any READY state that satisfies R26 (`Inv`, with log entries 5 and 16), with no
session open and the traverser at the root, the session of a non-empty message whose characters all have codes,
decoded with its bit length, gives the message back. -/
def Obligations.RoundTripGivesTheMessageBack : Prop :=
  ∀ (s : State) (text : List Ch), Inv s → s.err = false → s.trdy = true → s.psym = false → s.cur = 0 →
    text ≠ [] → (∀ c ∈ text, (clutAt s.clut c).valid = true) → (messageBits s text).length ≤ 4294967295 →
    ∃ t groups stream u, execAll (encodeSession text) s = .next t ∧ t.err = false ∧ t.outb = s.outb ++ groups ∧
      t.pbits.toNat = (messageBits s text).length ∧
      groups.length = ((messageBits s text).length + 7) / 8 ∧
      decodeStream groups t.pbits.toNat = some stream ∧
      execAll stream t = .next u ∧ u.err = false ∧ u.outc = s.outc ++ text ∧ u.cur = 0

/-- R94, R173: from any state with no fault recorded (R26 (k)), since LDTAB begins with TCLR, a table whose LDTAB ends
without a fault is loaded pair by pair: every pair is in the CLUT with its bit-string, the block is READY at the root
with no session open, both streams are as they were, and R26 holds (`Inv`, with log entries 5 and 16). -/
def Obligations.LoadedTableIsTheGivenTable : Prop :=
  ∀ (s t : State) (table : List (Ch × List Bool)) (cmds : List Instr), FaultInv s → s.err = false →
    ldtab table = some cmds → execAll cmds s = .next t → t.err = false →
    Inv t ∧ t.trdy = true ∧ t.cur = 0 ∧ t.psym = false ∧ t.outb = s.outb ∧ t.outc = s.outc ∧
    (∀ c bs, (c, bs) ∈ table → (clutAt t.clut c).valid = true ∧ codeBits (clutAt t.clut c) = bs) ∧
    (∀ c, (clutAt t.clut c).valid = true → ∃ bs, (c, bs) ∈ table)

/-- R43: nothing the traverser emits depends on the order in which the pairs of a table were loaded: two states
that satisfy R26 (`Inv`, with log entries 5 and 16) and hold the same code table decode every bit-string alike from
the root, and end at the root (ATROOT) on the same bit-strings. -/
def Obligations.DecodingDependsOnTheCodeTableAlone : Prop :=
  ∀ (s t : State) (bits : List Bool), Inv s → Inv t → (∀ c, clutAt s.clut c = clutAt t.clut c) →
    (∀ last out, walk s.node 0 bits = .ok (last, out) →
      ∃ last', walk t.node 0 bits = .ok (last', out) ∧ (last = 0 ↔ last' = 0)) ∧
    (∀ c, walk s.node 0 bits = .error c → walk t.node 0 bits = .error c)

/-- R51, R190: a run of the machine over words the host has pending is those words issued in order, and leaves the
moves after them. The pending moves are the model's own field (log entry 1). -/
def Obligations.RunIssuesThePendingWordsInOrder : Prop :=
  ∀ (s : State) (ws : List Word) (rest : List HostMove),
    Host.Core.run core ws.length { s with input := ws.map .command ++ rest } =
      issueAll ws { s with input := rest }

/-- R65: issuing the words of well-formed commands is executing the commands. -/
def Obligations.IssuingEncodedCommandsExecutesThem : Prop :=
  ∀ (s : State) (cmds : List Instr), (∀ i ∈ cmds, i.WellFormed) →
    issueAll (cmds.map encode) s = execAll cmds s

/-! ## The host's side -/

/-- R121: the frequency counter gives each distinct character once, with its number of occurrences. -/
def Obligations.FrequenciesCountOccurrences : Prop :=
  ∀ message : List Ch,
    ((frequencies message).map Prod.fst).Nodup ∧
    (∀ c n, (c, n) ∈ frequencies message ↔ n = message.count c ∧ 0 < n)

/-- R122 to R125: for a non-empty message the host builds a tree whatever the tie-break and the order in which it
takes the frequencies (log entry 17), and its codes are non-empty, pairwise prefix-free, and one for each character
of the message. -/
def Obligations.HostCodesArePrefixFreeAndCoverTheMessage : Prop :=
  ∀ (tiebreak : List HostTree → Nat) (message : List Ch) (freq : List (Ch × Nat)), message ≠ [] →
    freq.Perm (frequencies message) →
    ∃ table, codeTable tiebreak freq = some table ∧ (table.map Prod.fst).Nodup ∧
      (∀ c, c ∈ message ↔ ∃ bs, (c, bs) ∈ table) ∧
      (∀ c bs, (c, bs) ∈ table → bs ≠ []) ∧
      (∀ c bs d cs, (c, bs) ∈ table → (d, cs) ∈ table → c ≠ d → ¬ (bs <+: cs))

/-- R127, R128 and the source's property V5: from any state with no fault recorded, a message encoded with a code
table the host makes for it, whatever the tie-break, the order of the frequencies and the order of the LDCs (log entry
17), decodes with its bit length to the message, whenever the loads end without a fault: with the table loaded again,
in any order and in any block with no fault recorded (R128, R129), and with the table still loaded (DECS, R68). -/
def Obligations.HostEncodeThenDecodeGivesTheMessageBack : Prop :=
  ∀ (tiebreak : List HostTree → Nat) (s r : State) (message : List Ch) (freq : List (Ch × Nat))
    (table order : List (Ch × List Bool)) (cmds : List Instr), FaultInv s → s.err = false → message ≠ [] →
    freq.Perm (frequencies message) → codeTable tiebreak freq = some table → order.Perm table →
    ldtab order = some cmds → execAll cmds s = .next r → r.err = false →
    (messageBits r message).length ≤ 4294967295 →
    ∃ t groups stream, execAll (encodeSession message) r = .next t ∧ t.err = false ∧
      t.outb = s.outb ++ groups ∧ t.pbits.toNat = (messageBits r message).length ∧
      decodeStream groups t.pbits.toNat = some stream ∧
      (∀ (q v : State) (order' : List (Ch × List Bool)) (cmds' : List Instr), FaultInv q → q.err = false →
        order'.Perm table → ldtab order' = some cmds' → execAll cmds' q = .next v → v.err = false →
        ∃ u, execAll stream v = .next u ∧ u.err = false ∧ u.outc = q.outc ++ message ∧ u.cur = 0) ∧
      (∃ whole u, decs groups t.pbits.toNat = some whole ∧ execAll whole t = .next u ∧ u.err = false ∧
        u.outc = s.outc ++ message ∧ u.cur = 0)

/-- R9, R127: from any state with no fault recorded, the load of a code table the host makes for a message succeeds
whatever the tie-break, the order of the frequencies and the order of the LDCs (log entry 17), as long as no code is
longer than 15 bits (R180): the arena holds every tree of R122. -/
def Obligations.HostTableLoadsWithoutAFault : Prop :=
  ∀ (tiebreak : List HostTree → Nat) (s : State) (message : List Ch) (freq : List (Ch × Nat))
    (table order : List (Ch × List Bool)), s.err = false → message ≠ [] → freq.Perm (frequencies message) →
    codeTable tiebreak freq = some table → order.Perm table → (∀ e ∈ table, e.2.length ≤ 15) →
    ∃ cmds t, ldtab order = some cmds ∧ execAll cmds s = .next t ∧ t.err = false ∧ t.trdy = true
end

