-- ==== Sys2Proof/Laws/Host.lean ====
section
/-! SUPPORT. What the host's functions answer: when there are DECB commands for a stream, and the host's table. -/

namespace Sys2Proof.Machine

/-- There are commands for a stream exactly where R128's bound on its bit length holds. -/
theorem decodeStream_isSome_iff (groups : List Byte) (bits : Nat) :
    (decodeStream groups bits).isSome ↔ 8 * (groups.length - 1) < bits ∧ bits ≤ 8 * groups.length := by
  fun_induction decodeStream groups bits with
  | case1 => simp; omega
  | case2 g bits h => simp; omega
  | case3 g bits h => simp; omega
  | case4 g g' gs bits ih =>
    simp only [Option.isSome_map, ih, List.length_cons]
    omega

@[simp] theorem decs_eq_some_iff (groups : List Byte) (bits : Nat) (cmds : List Instr) :
    decs groups bits = some cmds ↔ ∃ stream, decodeStream groups bits = some stream ∧ .trst :: stream = cmds := by
  simp [decs]

/-- The host's table of a message is the table of its frequencies in the order the model lists them. -/
theorem hostCodes_eq (tiebreak : List HostTree → Nat) (message : List Ch) :
    hostCodes tiebreak message = codeTable tiebreak (frequencies message) := rfl

end Sys2Proof.Machine
end

