-- ==== Sys2Proof/Laws/State.lean ====
section
/-! SUPPORT. One lemma per field of State per update: what each named update writes and what it leaves. -/

namespace Sys2Proof.Machine

/-! writeNode -/

@[simp] theorem writeNode_acc (i : NodeIdx) (n : Node) (s : State) : (writeNode i n s).acc = s.acc := rfl
@[simp] theorem writeNode_acnt (i : NodeIdx) (n : Node) (s : State) : (writeNode i n s).acnt = s.acnt := rfl
@[simp] theorem writeNode_psym (i : NodeIdx) (n : Node) (s : State) : (writeNode i n s).psym = s.psym := rfl
@[simp] theorem writeNode_pbits (i : NodeIdx) (n : Node) (s : State) : (writeNode i n s).pbits = s.pbits := rfl
@[simp] theorem writeNode_trdy (i : NodeIdx) (n : Node) (s : State) : (writeNode i n s).trdy = s.trdy := rfl
@[simp] theorem writeNode_cur (i : NodeIdx) (n : Node) (s : State) : (writeNode i n s).cur = s.cur := rfl
@[simp] theorem writeNode_node (i : NodeIdx) (n : Node) (s : State) : (writeNode i n s).node = writeAt emptyNode s.node i.toNat n := rfl
@[simp] theorem writeNode_nalloc (i : NodeIdx) (n : Node) (s : State) : (writeNode i n s).nalloc = s.nalloc := rfl
@[simp] theorem writeNode_clut (i : NodeIdx) (n : Node) (s : State) : (writeNode i n s).clut = s.clut := rfl
@[simp] theorem writeNode_err (i : NodeIdx) (n : Node) (s : State) : (writeNode i n s).err = s.err := rfl
@[simp] theorem writeNode_cause (i : NodeIdx) (n : Node) (s : State) : (writeNode i n s).cause = s.cause := rfl
@[simp] theorem writeNode_ecmd (i : NodeIdx) (n : Node) (s : State) : (writeNode i n s).ecmd = s.ecmd := rfl
@[simp] theorem writeNode_outb (i : NodeIdx) (n : Node) (s : State) : (writeNode i n s).outb = s.outb := rfl
@[simp] theorem writeNode_outc (i : NodeIdx) (n : Node) (s : State) : (writeNode i n s).outc = s.outc := rfl
@[simp] theorem writeNode_input (i : NodeIdx) (n : Node) (s : State) : (writeNode i n s).input = s.input := rfl

/-! writeClut -/

@[simp] theorem writeClut_acc (c : Ch) (e : ClutEntry) (s : State) : (writeClut c e s).acc = s.acc := rfl
@[simp] theorem writeClut_acnt (c : Ch) (e : ClutEntry) (s : State) : (writeClut c e s).acnt = s.acnt := rfl
@[simp] theorem writeClut_psym (c : Ch) (e : ClutEntry) (s : State) : (writeClut c e s).psym = s.psym := rfl
@[simp] theorem writeClut_pbits (c : Ch) (e : ClutEntry) (s : State) : (writeClut c e s).pbits = s.pbits := rfl
@[simp] theorem writeClut_trdy (c : Ch) (e : ClutEntry) (s : State) : (writeClut c e s).trdy = s.trdy := rfl
@[simp] theorem writeClut_cur (c : Ch) (e : ClutEntry) (s : State) : (writeClut c e s).cur = s.cur := rfl
@[simp] theorem writeClut_node (c : Ch) (e : ClutEntry) (s : State) : (writeClut c e s).node = s.node := rfl
@[simp] theorem writeClut_nalloc (c : Ch) (e : ClutEntry) (s : State) : (writeClut c e s).nalloc = s.nalloc := rfl
@[simp] theorem writeClut_clut (c : Ch) (e : ClutEntry) (s : State) : (writeClut c e s).clut = writeAt noCode s.clut c.toNat e := rfl
@[simp] theorem writeClut_err (c : Ch) (e : ClutEntry) (s : State) : (writeClut c e s).err = s.err := rfl
@[simp] theorem writeClut_cause (c : Ch) (e : ClutEntry) (s : State) : (writeClut c e s).cause = s.cause := rfl
@[simp] theorem writeClut_ecmd (c : Ch) (e : ClutEntry) (s : State) : (writeClut c e s).ecmd = s.ecmd := rfl
@[simp] theorem writeClut_outb (c : Ch) (e : ClutEntry) (s : State) : (writeClut c e s).outb = s.outb := rfl
@[simp] theorem writeClut_outc (c : Ch) (e : ClutEntry) (s : State) : (writeClut c e s).outc = s.outc := rfl
@[simp] theorem writeClut_input (c : Ch) (e : ClutEntry) (s : State) : (writeClut c e s).input = s.input := rfl

/-! faultEntry: the fault registers only (R150) -/

@[simp] theorem faultEntry_acc (k : Cause) (w : Word) (s : State) : (faultEntry k w s).acc = s.acc := rfl
@[simp] theorem faultEntry_acnt (k : Cause) (w : Word) (s : State) : (faultEntry k w s).acnt = s.acnt := rfl
@[simp] theorem faultEntry_psym (k : Cause) (w : Word) (s : State) : (faultEntry k w s).psym = s.psym := rfl
@[simp] theorem faultEntry_pbits (k : Cause) (w : Word) (s : State) : (faultEntry k w s).pbits = s.pbits := rfl
@[simp] theorem faultEntry_trdy (k : Cause) (w : Word) (s : State) : (faultEntry k w s).trdy = s.trdy := rfl
@[simp] theorem faultEntry_cur (k : Cause) (w : Word) (s : State) : (faultEntry k w s).cur = s.cur := rfl
@[simp] theorem faultEntry_node (k : Cause) (w : Word) (s : State) : (faultEntry k w s).node = s.node := rfl
@[simp] theorem faultEntry_nalloc (k : Cause) (w : Word) (s : State) : (faultEntry k w s).nalloc = s.nalloc := rfl
@[simp] theorem faultEntry_clut (k : Cause) (w : Word) (s : State) : (faultEntry k w s).clut = s.clut := rfl
@[simp] theorem faultEntry_err (k : Cause) (w : Word) (s : State) : (faultEntry k w s).err = true := rfl
@[simp] theorem faultEntry_cause (k : Cause) (w : Word) (s : State) : (faultEntry k w s).cause = k.code := rfl
@[simp] theorem faultEntry_ecmd (k : Cause) (w : Word) (s : State) : (faultEntry k w s).ecmd = w := rfl
@[simp] theorem faultEntry_outb (k : Cause) (w : Word) (s : State) : (faultEntry k w s).outb = s.outb := rfl
@[simp] theorem faultEntry_outc (k : Cause) (w : Word) (s : State) : (faultEntry k w s).outc = s.outc := rfl
@[simp] theorem faultEntry_input (k : Cause) (w : Word) (s : State) : (faultEntry k w s).input = s.input := rfl

/-! resetBlock: every field of the block (R27) -/

@[simp] theorem resetBlock_acc (s : State) : (resetBlock s).acc = State.reset.acc := rfl
@[simp] theorem resetBlock_acnt (s : State) : (resetBlock s).acnt = State.reset.acnt := rfl
@[simp] theorem resetBlock_psym (s : State) : (resetBlock s).psym = State.reset.psym := rfl
@[simp] theorem resetBlock_pbits (s : State) : (resetBlock s).pbits = State.reset.pbits := rfl
@[simp] theorem resetBlock_trdy (s : State) : (resetBlock s).trdy = State.reset.trdy := rfl
@[simp] theorem resetBlock_cur (s : State) : (resetBlock s).cur = State.reset.cur := rfl
@[simp] theorem resetBlock_node (s : State) : (resetBlock s).node = State.reset.node := rfl
@[simp] theorem resetBlock_nalloc (s : State) : (resetBlock s).nalloc = State.reset.nalloc := rfl
@[simp] theorem resetBlock_clut (s : State) : (resetBlock s).clut = State.reset.clut := rfl
@[simp] theorem resetBlock_err (s : State) : (resetBlock s).err = State.reset.err := rfl
@[simp] theorem resetBlock_cause (s : State) : (resetBlock s).cause = State.reset.cause := rfl
@[simp] theorem resetBlock_ecmd (s : State) : (resetBlock s).ecmd = State.reset.ecmd := rfl
@[simp] theorem resetBlock_outb (s : State) : (resetBlock s).outb = State.reset.outb := rfl
@[simp] theorem resetBlock_outc (s : State) : (resetBlock s).outc = State.reset.outc := rfl
@[simp] theorem resetBlock_input (s : State) : (resetBlock s).input = s.input := rfl

/-! emitB -/

@[simp] theorem emitB_acc (v : Byte) (s : State) : (emitB v s).acc = s.acc := rfl
@[simp] theorem emitB_acnt (v : Byte) (s : State) : (emitB v s).acnt = s.acnt := rfl
@[simp] theorem emitB_psym (v : Byte) (s : State) : (emitB v s).psym = s.psym := rfl
@[simp] theorem emitB_pbits (v : Byte) (s : State) : (emitB v s).pbits = s.pbits := rfl
@[simp] theorem emitB_trdy (v : Byte) (s : State) : (emitB v s).trdy = s.trdy := rfl
@[simp] theorem emitB_cur (v : Byte) (s : State) : (emitB v s).cur = s.cur := rfl
@[simp] theorem emitB_node (v : Byte) (s : State) : (emitB v s).node = s.node := rfl
@[simp] theorem emitB_nalloc (v : Byte) (s : State) : (emitB v s).nalloc = s.nalloc := rfl
@[simp] theorem emitB_clut (v : Byte) (s : State) : (emitB v s).clut = s.clut := rfl
@[simp] theorem emitB_err (v : Byte) (s : State) : (emitB v s).err = s.err := rfl
@[simp] theorem emitB_cause (v : Byte) (s : State) : (emitB v s).cause = s.cause := rfl
@[simp] theorem emitB_ecmd (v : Byte) (s : State) : (emitB v s).ecmd = s.ecmd := rfl
@[simp] theorem emitB_outb (v : Byte) (s : State) : (emitB v s).outb = s.outb ++ [v] := rfl
@[simp] theorem emitB_outc (v : Byte) (s : State) : (emitB v s).outc = s.outc := rfl
@[simp] theorem emitB_input (v : Byte) (s : State) : (emitB v s).input = s.input := rfl

/-! emitChars -/

@[simp] theorem emitChars_acc (cs : List Ch) (s : State) : (emitChars cs s).acc = s.acc := rfl
@[simp] theorem emitChars_acnt (cs : List Ch) (s : State) : (emitChars cs s).acnt = s.acnt := rfl
@[simp] theorem emitChars_psym (cs : List Ch) (s : State) : (emitChars cs s).psym = s.psym := rfl
@[simp] theorem emitChars_pbits (cs : List Ch) (s : State) : (emitChars cs s).pbits = s.pbits := rfl
@[simp] theorem emitChars_trdy (cs : List Ch) (s : State) : (emitChars cs s).trdy = s.trdy := rfl
@[simp] theorem emitChars_cur (cs : List Ch) (s : State) : (emitChars cs s).cur = s.cur := rfl
@[simp] theorem emitChars_node (cs : List Ch) (s : State) : (emitChars cs s).node = s.node := rfl
@[simp] theorem emitChars_nalloc (cs : List Ch) (s : State) : (emitChars cs s).nalloc = s.nalloc := rfl
@[simp] theorem emitChars_clut (cs : List Ch) (s : State) : (emitChars cs s).clut = s.clut := rfl
@[simp] theorem emitChars_err (cs : List Ch) (s : State) : (emitChars cs s).err = s.err := rfl
@[simp] theorem emitChars_cause (cs : List Ch) (s : State) : (emitChars cs s).cause = s.cause := rfl
@[simp] theorem emitChars_ecmd (cs : List Ch) (s : State) : (emitChars cs s).ecmd = s.ecmd := rfl
@[simp] theorem emitChars_outb (cs : List Ch) (s : State) : (emitChars cs s).outb = s.outb := rfl
@[simp] theorem emitChars_outc (cs : List Ch) (s : State) : (emitChars cs s).outc = s.outc ++ cs := rfl
@[simp] theorem emitChars_input (cs : List Ch) (s : State) : (emitChars cs s).input = s.input := rfl

/-! clearTable (R81) -/

@[simp] theorem clearTable_acc (s : State) : (clearTable s).acc = 0 := rfl
@[simp] theorem clearTable_acnt (s : State) : (clearTable s).acnt = 0 := rfl
@[simp] theorem clearTable_psym (s : State) : (clearTable s).psym = false := rfl
@[simp] theorem clearTable_pbits (s : State) : (clearTable s).pbits = 0 := rfl
@[simp] theorem clearTable_trdy (s : State) : (clearTable s).trdy = false := rfl
@[simp] theorem clearTable_cur (s : State) : (clearTable s).cur = 0 := rfl
@[simp] theorem clearTable_node (s : State) : (clearTable s).node = [] := rfl
@[simp] theorem clearTable_nalloc (s : State) : (clearTable s).nalloc = 1 := rfl
@[simp] theorem clearTable_clut (s : State) : (clearTable s).clut = [] := rfl
@[simp] theorem clearTable_err (s : State) : (clearTable s).err = s.err := rfl
@[simp] theorem clearTable_cause (s : State) : (clearTable s).cause = s.cause := rfl
@[simp] theorem clearTable_ecmd (s : State) : (clearTable s).ecmd = s.ecmd := rfl
@[simp] theorem clearTable_outb (s : State) : (clearTable s).outb = s.outb := rfl
@[simp] theorem clearTable_outc (s : State) : (clearTable s).outc = s.outc := rfl
@[simp] theorem clearTable_input (s : State) : (clearTable s).input = s.input := rfl

/-! addChild -/

@[simp] theorem addChild_acc (i : NodeIdx) (b : Bool) (n : Node) (s : State) : (addChild i b n s).acc = s.acc := rfl
@[simp] theorem addChild_acnt (i : NodeIdx) (b : Bool) (n : Node) (s : State) : (addChild i b n s).acnt = s.acnt := rfl
@[simp] theorem addChild_psym (i : NodeIdx) (b : Bool) (n : Node) (s : State) : (addChild i b n s).psym = s.psym := rfl
@[simp] theorem addChild_pbits (i : NodeIdx) (b : Bool) (n : Node) (s : State) : (addChild i b n s).pbits = s.pbits := rfl
@[simp] theorem addChild_trdy (i : NodeIdx) (b : Bool) (n : Node) (s : State) : (addChild i b n s).trdy = s.trdy := rfl
@[simp] theorem addChild_cur (i : NodeIdx) (b : Bool) (n : Node) (s : State) : (addChild i b n s).cur = s.cur := rfl
@[simp] theorem addChild_node (i : NodeIdx) (b : Bool) (n : Node) (s : State) : (addChild i b n s).node = 
      writeAt emptyNode (writeAt emptyNode s.node i.toNat ((nodeAt s.node i).withChild b (newIndex s)))
        (newIndex s).toNat n := rfl
@[simp] theorem addChild_nalloc (i : NodeIdx) (b : Bool) (n : Node) (s : State) : (addChild i b n s).nalloc = s.nalloc + 1 := rfl
@[simp] theorem addChild_clut (i : NodeIdx) (b : Bool) (n : Node) (s : State) : (addChild i b n s).clut = s.clut := rfl
@[simp] theorem addChild_err (i : NodeIdx) (b : Bool) (n : Node) (s : State) : (addChild i b n s).err = s.err := rfl
@[simp] theorem addChild_cause (i : NodeIdx) (b : Bool) (n : Node) (s : State) : (addChild i b n s).cause = s.cause := rfl
@[simp] theorem addChild_ecmd (i : NodeIdx) (b : Bool) (n : Node) (s : State) : (addChild i b n s).ecmd = s.ecmd := rfl
@[simp] theorem addChild_outb (i : NodeIdx) (b : Bool) (n : Node) (s : State) : (addChild i b n s).outb = s.outb := rfl
@[simp] theorem addChild_outc (i : NodeIdx) (b : Bool) (n : Node) (s : State) : (addChild i b n s).outc = s.outc := rfl
@[simp] theorem addChild_input (i : NodeIdx) (b : Bool) (n : Node) (s : State) : (addChild i b n s).input = s.input := rfl

/-! offerWord -/

@[simp] theorem offerWord_acc (w : Word) (s : State) : (offerWord w s).acc = s.acc := rfl
@[simp] theorem offerWord_acnt (w : Word) (s : State) : (offerWord w s).acnt = s.acnt := rfl
@[simp] theorem offerWord_psym (w : Word) (s : State) : (offerWord w s).psym = s.psym := rfl
@[simp] theorem offerWord_pbits (w : Word) (s : State) : (offerWord w s).pbits = s.pbits := rfl
@[simp] theorem offerWord_trdy (w : Word) (s : State) : (offerWord w s).trdy = s.trdy := rfl
@[simp] theorem offerWord_cur (w : Word) (s : State) : (offerWord w s).cur = s.cur := rfl
@[simp] theorem offerWord_node (w : Word) (s : State) : (offerWord w s).node = s.node := rfl
@[simp] theorem offerWord_nalloc (w : Word) (s : State) : (offerWord w s).nalloc = s.nalloc := rfl
@[simp] theorem offerWord_clut (w : Word) (s : State) : (offerWord w s).clut = s.clut := rfl
@[simp] theorem offerWord_err (w : Word) (s : State) : (offerWord w s).err = s.err := rfl
@[simp] theorem offerWord_cause (w : Word) (s : State) : (offerWord w s).cause = s.cause := rfl
@[simp] theorem offerWord_ecmd (w : Word) (s : State) : (offerWord w s).ecmd = s.ecmd := rfl
@[simp] theorem offerWord_outb (w : Word) (s : State) : (offerWord w s).outb = s.outb := rfl
@[simp] theorem offerWord_outc (w : Word) (s : State) : (offerWord w s).outc = s.outc := rfl
@[simp] theorem offerWord_input (w : Word) (s : State) : (offerWord w s).input = .command w :: s.input := rfl

end Sys2Proof.Machine
end

