-- ==== Sys2Proof/Laws/Table.lean ====
section
/-! SUPPORT. The two memories: a read after a write, and that a write keeps the canonical form. -/

namespace Sys2Proof.Machine

variable {α : Type}

theorem readAt_insertAt (d : α) (t : List (Nat × α)) (a b : Nat) (v : α) (h : ∀ e ∈ t, e.1 ≠ a) :
    readAt d (insertAt a v t) b = if a = b then v else readAt d t b := by
  induction t with
  | nil => simp [insertAt, readAt]
  | cons e t ih =>
    obtain ⟨k, u⟩ := e
    have hk : k ≠ a := h (k, u) (by simp)
    by_cases hak : a < k
    · simp [insertAt, readAt, hak]
    · have ht := ih (fun e he => h e (by simp [he]))
      by_cases hkb : k = b
      · subst hkb
        simp [insertAt, readAt, hak, Ne.symm hk]
      · simp [insertAt, readAt, hak, hkb, ht]

theorem readAt_filter (d : α) (t : List (Nat × α)) (a b : Nat) :
    readAt d (t.filter (fun e => e.1 != a)) b = if a = b then d else readAt d t b := by
  induction t with
  | nil => simp [readAt]
  | cons e t ih =>
    obtain ⟨k, u⟩ := e
    by_cases hka : k = a
    · subst hka
      by_cases hkb : k = b <;> simp_all [readAt]
    · by_cases hkb : k = b
      · subst hkb
        simp [readAt, hka, Ne.symm hka]
      · simp [readAt, hka, hkb, ih]

theorem filter_ne_key (t : List (Nat × α)) (a : Nat) : ∀ e ∈ t.filter (fun e => e.1 != a), e.1 ≠ a := by
  intro e he
  simpa using (List.mem_filter.mp he).2

/-- A read after a write (R51): the value at the written index, the old one elsewhere; for any list. -/
@[simp] theorem readAt_writeAt [DecidableEq α] (d : α) (t : List (Nat × α)) (a b : Nat) (v : α) :
    readAt d (writeAt d t a v) b = if a = b then v else readAt d t b := by
  unfold writeAt
  split
  · next h => rw [readAt_filter, h]
  · rw [readAt_insertAt d _ a b v (filter_ne_key t a), readAt_filter]
    split <;> rfl

theorem mem_insertAt (t : List (Nat × α)) (a : Nat) (v : α) (e : Nat × α) :
    e ∈ insertAt a v t ↔ e = (a, v) ∨ e ∈ t := by
  induction t with
  | nil => simp [insertAt]
  | cons x t ih =>
    obtain ⟨k, u⟩ := x
    unfold insertAt
    split
    · simp
    · simp only [List.mem_cons, ih]
      tauto

theorem insertAt_rising (t : List (Nat × α)) (a : Nat) (v : α)
    (ht : t.Pairwise (fun x y => x.1 < y.1)) (h : ∀ e ∈ t, e.1 ≠ a) :
    (insertAt a v t).Pairwise (fun x y => x.1 < y.1) := by
  induction t with
  | nil => simp [insertAt]
  | cons x t ih =>
    obtain ⟨k, u⟩ := x
    have hk : k ≠ a := h (k, u) (by simp)
    rw [List.pairwise_cons] at ht
    unfold insertAt
    split
    · next hak =>
      refine List.pairwise_cons.mpr ⟨?_, List.pairwise_cons.mpr ht⟩
      intro e he
      rcases List.mem_cons.mp he with rfl | he
      · exact hak
      · exact Nat.lt_trans hak (ht.1 e he)
    · next hak =>
      refine List.pairwise_cons.mpr ⟨?_, ih ht.2 (fun e he => h e (by simp [he]))⟩
      intro e he
      rcases (mem_insertAt t a v e).mp he with rfl | he
      · exact Nat.lt_of_le_of_ne (Nat.le_of_not_lt hak) hk
      · exact ht.1 e he

/-- A write keeps the canonical form. -/
theorem canonical_writeAt [DecidableEq α] (d : α) (bound : Nat) (t : List (Nat × α)) (a : Nat) (v : α)
    (ht : Canonical d bound t) (ha : a < bound) : Canonical d bound (writeAt d t a v) := by
  have hf : Canonical d bound (t.filter (fun e => e.1 != a)) :=
    ⟨ht.1.filter _, fun e he => ht.2 e (List.mem_filter.mp he).1⟩
  unfold writeAt
  split
  · exact hf
  · next hv =>
    refine ⟨insertAt_rising _ a v hf.1 (filter_ne_key t a), ?_⟩
    intro e he
    rcases (mem_insertAt _ a v e).mp he with rfl | he
    · exact ⟨ha, hv⟩
    · exact hf.2 e he

@[simp] theorem nodeAt_nil (i : NodeIdx) : nodeAt [] i = emptyNode := rfl

@[simp] theorem clutAt_nil (c : Ch) : clutAt [] c = noCode := rfl

@[simp] theorem nodeAt_writeAt (t : List (Nat × Node)) (i j : NodeIdx) (n : Node) :
    nodeAt (writeAt emptyNode t i.toNat n) j = if i = j then n else nodeAt t j := by
  simp [nodeAt, BitVec.toNat_inj]

@[simp] theorem clutAt_writeAt (t : List (Nat × ClutEntry)) (c d : Ch) (e : ClutEntry) :
    clutAt (writeAt noCode t c.toNat e) d = if c = d then e else clutAt t d := by
  simp [clutAt, BitVec.toNat_inj]

/-- Writing a record keeps both memories canonical. -/
theorem writeNode_wf (i : NodeIdx) (n : Node) (s : State) (h : Memory.wf s) : Memory.wf (writeNode i n s) :=
  ⟨h.1, canonical_writeAt _ _ _ _ _ h.2 i.isLt⟩

/-- Writing an entry keeps both memories canonical. -/
theorem writeClut_wf (c : Ch) (e : ClutEntry) (s : State) (h : Memory.wf s) : Memory.wf (writeClut c e s) :=
  ⟨canonical_writeAt _ _ _ _ _ h.1 c.isLt, h.2⟩

/-- Allocating a child keeps both memories canonical. -/
theorem addChild_wf (i : NodeIdx) (b : Bool) (n : Node) (s : State) (h : Memory.wf s) :
    Memory.wf (addChild i b n s) :=
  writeNode_wf _ _ _ (writeNode_wf _ _ _ h)

/-- LDC's phase 2 keeps both memories canonical. -/
theorem growPath_wf (ch : Ch) (cur : NodeIdx) (bs : List Bool) (s : State) (h : Memory.wf s) :
    Memory.wf (growPath ch cur bs s) := by
  induction bs generalizing cur s with
  | nil => exact h
  | cons b bs ih =>
    cases bs with
    | nil => exact addChild_wf _ _ _ _ h
    | cons b' bs => exact ih _ _ (addChild_wf _ _ _ _ h)

/-- Both memories are canonical at reset: nothing is listed. -/
theorem reset_memory_wf : Memory.wf State.reset := by decide

end Sys2Proof.Machine
end

