-- ==== Sys2Proof/Laws/Ops.lean ====
section
/-! SUPPORT. One lemma per shared operation: all it can do. -/

namespace Sys2Proof.Machine

@[simp] theorem phase_faulted (s : State) : s.phase = .faulted ↔ s.err = true := by
  unfold State.phase; cases s.err <;> cases s.trdy <;> simp

@[simp] theorem phase_ready (s : State) : s.phase = .ready ↔ s.err = false ∧ s.trdy = true := by
  unfold State.phase; cases s.err <;> cases s.trdy <;> simp

@[simp] theorem phase_loading (s : State) : s.phase = .loading ↔ s.err = false ∧ s.trdy = false := by
  unfold State.phase; cases s.err <;> cases s.trdy <;> simp

/-- A cause code is 1 to 7 (R141). -/
theorem cause_code_range (c : Cause) : 1 ≤ c.code.toNat ∧ c.code.toNat ≤ 7 := by cases c <;> decide

/-- Everything `runCommand` can do (R143 steps 1, 3, 4; R149): it always answers a next state, which is the
unchanged state, fault entry with SequenceError, what the rule gives, or fault entry with the rule's cause. -/
theorem runCommand_cases (i : Instr) (rule : State → Except Cause State) (s : State) :
    (disposition i s.phase = .ignored ∧ runCommand i rule s = .next s) ∨
    (disposition i s.phase = .sequenceError ∧
      runCommand i rule s = .next (faultEntry .sequenceError (encode i) s)) ∨
    (disposition i s.phase = .executes ∧ ∃ t, rule s = .ok t ∧ runCommand i rule s = .next t) ∨
    (disposition i s.phase = .executes ∧
      ∃ c, rule s = .error c ∧ runCommand i rule s = .next (faultEntry c (encode i) s)) := by
  unfold runCommand
  cases disposition i s.phase
  · cases h : rule s with
    | ok t => simp
    | error c => simp
  · simp
  · simp

/-- A command that executes and does not fault ends in what its rule gives. -/
theorem runCommand_ok {i : Instr} {rule : State → Except Cause State} {s t : State}
    (hd : disposition i s.phase = .executes) (hr : rule s = .ok t) : runCommand i rule s = .next t := by
  simp [runCommand, hd, hr]

/-- A command whose rule raises a fault ends in fault entry (R149, R150). -/
theorem runCommand_error {i : Instr} {rule : State → Except Cause State} {s : State} {c : Cause}
    (hd : disposition i s.phase = .executes) (hr : rule s = .error c) :
    runCommand i rule s = .next (faultEntry c (encode i) s) := by
  simp [runCommand, hd, hr]

/-- In FAULTED every command but RESET is ignored (R143 step 1, R145). -/
theorem disposition_faulted (i : Instr) :
    disposition i .faulted = if i = .reset then .executes else .ignored := by
  cases i <;> rfl

/-- Only RESET, TCLR and TRST execute in every phase but FAULTED; no command is ignored outside it (R145). -/
theorem disposition_ignored (i : Instr) (p : Phase) :
    disposition i p = .ignored ↔ p = .faulted ∧ i ≠ .reset := by
  cases i <;> cases p <;> simp [disposition, Phase.choose]

/-- What one bit into the packer does (R100): ACNT counts modulo 8, a group leaves exactly when eight bits are
held, and no other field is written. -/
theorem packBit_eq (s : State) (b : Bool) : packBit s b =
    if s.acnt.toNat = 7 then
      { s with acc := 0, acnt := 0, outb := s.outb ++ [shiftIn s.acc b] }
    else { s with acc := shiftIn s.acc b, acnt := s.acnt + 1 } := by
  unfold packBit emitB
  by_cases h : s.acnt.toNat = 7 <;> simp [h]

/-- ACNT after one bit, as a number (R12, R100). -/
theorem packBit_acnt (s : State) (b : Bool) : (packBit s b).acnt.toNat = (s.acnt.toNat + 1) % 8 := by
  rw [packBit_eq]
  split
  · next h => simp [h]
  · simp [BitVec.toNat_add]

/-- The packer writes ACC, ACNT and OUTB only (R54). -/
theorem packBits_frame (bs : List Bool) (s : State) :
    packBits bs s = { s with
      acc := (packBits bs s).acc, acnt := (packBits bs s).acnt, outb := (packBits bs s).outb } := by
  induction bs generalizing s with
  | nil => rfl
  | cons b bs ih =>
    rw [packBits, ih, packBit_eq]
    split <;> rfl

@[simp] theorem packBits_nil (s : State) : packBits [] s = s := rfl

@[simp] theorem packBits_cons (b : Bool) (bs : List Bool) (s : State) :
    packBits (b :: bs) s = packBits bs (packBit s b) := rfl

theorem packBits_append (bs cs : List Bool) (s : State) :
    packBits (bs ++ cs) s = packBits cs (packBits bs s) := by
  induction bs generalizing s with
  | nil => rfl
  | cons b bs ih => simp [ih]

/-- ACNT after some bits (R100 corner case 5). -/
theorem packBits_acnt (bs : List Bool) (s : State) :
    (packBits bs s).acnt.toNat = (s.acnt.toNat + bs.length) % 8 := by
  induction bs generalizing s with
  | nil => simp [Nat.mod_eq_of_lt s.acnt.isLt]
  | cons b bs ih =>
    rw [packBits_cons, ih, packBit_acnt, List.length_cons]
    omega

@[simp] theorem pathBits_length (k : Nat) (code : CodeBits) : (pathBits k code).length = k := by
  induction k with
  | zero => rfl
  | succ k ih => simp [pathBits, ih]

@[simp] theorem codeBits_length (e : ClutEntry) : (codeBits e).length = e.len.toNat := pathBits_length _ _

@[simp] theorem byteBits_length (g : Byte) : (byteBits g).length = 8 := rfl

/-- The first character emitted by a walk comes from its first bits (R44, R111). -/
theorem walk_cons (t : List (Nat × Node)) (cur : NodeIdx) (b : Bool) (bs : List Bool) :
    walk t cur (b :: bs) =
      match tstep t cur b with
      | .error c => .error c
      | .ok (nxt, oc) =>
        match walk t nxt bs with
        | .error c => .error c
        | .ok (last, out) => .ok (last, oc.toList ++ out) := rfl

/-- A walk can only fail with InvalidPath (R111, R112). -/
theorem walk_error {t : List (Nat × Node)} {cur : NodeIdx} {bs : List Bool} {c : Cause}
    (h : walk t cur bs = .error c) : c = .invalidPath := by
  induction bs generalizing cur with
  | nil => simp [walk] at h
  | cons b bs ih =>
    rw [walk_cons] at h
    unfold tstep at h
    simp only at h
    split at h
    · next he =>
      split at he
      · simp_all
      · split at he <;> simp at he
    · split at h
      · next h1 => cases h; exact ih h1
      · simp at h

/-- What a successful walk is, over an append: CUR carries over (R50, R111 corner case 3). -/
theorem walk_append (t : List (Nat × Node)) (cur : NodeIdx) (bs cs : List Bool) :
    walk t cur (bs ++ cs) =
      match walk t cur bs with
      | .error c => .error c
      | .ok (mid, out) =>
        match walk t mid cs with
        | .error c => .error c
        | .ok (last, out') => .ok (last, out ++ out') := by
  induction bs generalizing cur with
  | nil => simp only [List.nil_append, walk]; cases walk t cur cs <;> simp
  | cons b bs ih =>
    simp only [List.cons_append, walk_cons, ih]
    cases tstep t cur b with
    | error c => rfl
    | ok p =>
      simp only
      cases walk t p.1 bs with
      | error c => rfl
      | ok q =>
        simp only
        cases walk t q.1 cs with
        | error c => rfl
        | ok r => simp [List.append_assoc]

/-- LDC's phase 1 can only fail with InvalidCodeTable (R91, R92). -/
theorem descend_error {t : List (Nat × Node)} {cur : NodeIdx} {bs : List Bool} {c : Cause}
    (h : descend t cur bs = .error c) : c = .invalidCodeTable := by
  induction bs generalizing cur with
  | nil => simp [descend] at h
  | cons b bs ih =>
    unfold descend at h
    split at h
    · cases h; rfl
    · simp only at h
      split at h
      · cases h
      · exact ih h

/-- Where LDC's phase 1 stops with bits left: at a node that is no LEAF and has no child on the next bit, and the
bits left are the end of the path (R92 corner case 1). -/
theorem descend_stop {t : List (Nat × Node)} {cur stop : NodeIdx} {bs rest : List Bool} {b : Bool}
    (h : descend t cur bs = .ok (stop, b :: rest)) :
    (nodeAt t stop).tag ≠ .leaf ∧ (nodeAt t stop).child b = 0 ∧ ∃ pre, bs = pre ++ b :: rest := by
  induction bs generalizing cur with
  | nil => simp [descend] at h
  | cons b' bs ih =>
    unfold descend at h
    split at h
    · cases h
    · next hl =>
      simp only at h
      split at h
      · next hz =>
        cases h
        exact ⟨hl, hz, [], rfl⟩
      · obtain ⟨h1, h2, pre, rfl⟩ := ih h
        exact ⟨h1, h2, b' :: pre, rfl⟩

/-- LDC's phase 2 writes NODE and NALLOC only (R92). -/
theorem growPath_frame (ch : Ch) (cur : NodeIdx) (bs : List Bool) (s : State) :
    growPath ch cur bs s = { s with
      node := (growPath ch cur bs s).node, nalloc := (growPath ch cur bs s).nalloc } := by
  induction bs generalizing cur s with
  | nil => rfl
  | cons b bs ih =>
    cases bs with
    | nil => rfl
    | cons b' bs => rw [growPath, ih]; rfl

/-- LDC's phase 2 allocates one record per path bit left (R18, R92). -/
theorem growPath_nalloc (ch : Ch) (cur : NodeIdx) (bs : List Bool) (s : State) :
    (growPath ch cur bs s).nalloc = s.nalloc + BitVec.ofNat 10 bs.length := by
  induction bs generalizing cur s with
  | nil => simp [growPath]
  | cons b bs ih =>
    cases bs with
    | nil => simp [growPath]
    | cons b' bs =>
      rw [growPath, ih, addChild_nalloc]
      simp only [List.length_cons]
      bv_omega

/-- A step with no move pending changes nothing (R152). -/
@[simp] theorem takeMove_nil {s : State} (h : s.input = []) : takeMove s = .next s := by simp [takeMove, h]

/-- A step performs the host's next move (R6). -/
theorem takeMove_cons {s : State} {m : HostMove} {rest : List HostMove} (h : s.input = m :: rest) :
    takeMove s = perform m { s with input := rest } := by simp [takeMove, h]

/-- Each command's own rule, the pseudocode of R80 to R111. -/
def ruleOf : Instr → State → Except Cause State
  | .reset, s => .ok (resetBlock s)
  | .tclr, s => .ok (clearTable s)
  | .ldc len ch code, s => loadPair len ch code s
  | .tfin, s => finishTable s
  | .enc ch, s => packChar ch s
  | .eflush, s => flushPacker s
  | .decbit bit, s => moveOne bit s
  | .decb n g, s => decodeGroup n g s
  | .trst, s => .ok { s with cur := 0 }

/-- Every command is its own rule behind the checks of R143. -/
theorem exec_eq_runCommand (i : Instr) (s : State) : exec i s = runCommand i (ruleOf i) s := by
  cases i <;> rfl

/-- Every command ends in a next state (R189, R190): `exec` never stops the machine. -/
theorem exec_next (i : Instr) (s : State) : ∃ t, exec i s = .next t := by
  rw [exec_eq_runCommand]
  rcases runCommand_cases i (ruleOf i) s with ⟨-, h⟩ | ⟨-, h⟩ | ⟨-, t, -, h⟩ | ⟨-, c, -, h⟩ <;> exact ⟨_, h⟩

end Sys2Proof.Machine
end

