-- ==== Sys2Proof/Laws/PerInstr.lean ====
section
/-! SUPPORT. The per-instruction family TableRow: every command's word lies in its row of R65's table. -/

namespace Sys2Proof

/-- A command's row of R65's table: match and mask. -/
def Laws.TableRow.row : Instr → Word × Word
  | .reset => (0x10000000, 0xFFFFFFFF)
  | .tclr => (0x20000000, 0xFFFFFFFF)
  | .ldc _ _ _ => (0x30000000, 0xF0008000)
  | .tfin => (0x40000000, 0xFFFFFFFF)
  | .enc _ => (0x50000000, 0xFF00FFFF)
  | .eflush => (0x60000000, 0xFFFFFFFF)
  | .decbit _ => (0x70000000, 0xFFFFFFFE)
  | .decb _ _ => (0x80000000, 0xF000FFFF)
  | .trst => (0x90000000, 0xFFFFFFFF)

/-- The encoded word, masked as R65's table masks it, is the row's match. -/
def Laws.TableRow.Statement (i : Instr) : Prop :=
  encode i &&& (Laws.TableRow.row i).2 = (Laws.TableRow.row i).1

theorem Laws.TableRow.reset : Laws.TableRow.Statement .reset := by unfold Statement; decide

theorem Laws.TableRow.tclr : Laws.TableRow.Statement .tclr := by unfold Statement; decide

theorem Laws.TableRow.ldc (len : CodeLen) (ch : Ch) (code : CodeBits) :
    Laws.TableRow.Statement (.ldc len ch code) := by
  unfold Statement encode formatC row
  apply BitVec.eq_of_getLsbD_eq
  intro k hk
  interval_cases k <;> simp

theorem Laws.TableRow.tfin : Laws.TableRow.Statement .tfin := by unfold Statement; decide

theorem Laws.TableRow.enc (ch : Ch) : Laws.TableRow.Statement (.enc ch) := by
  unfold Statement encode formatC row
  apply BitVec.eq_of_getLsbD_eq
  intro k hk
  interval_cases k <;> simp

theorem Laws.TableRow.eflush : Laws.TableRow.Statement .eflush := by unfold Statement; decide

theorem Laws.TableRow.decbit (bit : Bool) : Laws.TableRow.Statement (.decbit bit) := by
  unfold Statement; revert bit; decide

theorem Laws.TableRow.decb (n : BitVec 4) (g : Byte) : Laws.TableRow.Statement (.decb n g) := by
  unfold Statement encode formatC row
  apply BitVec.eq_of_getLsbD_eq
  intro k hk
  interval_cases k <;> simp

theorem Laws.TableRow.trst : Laws.TableRow.Statement .trst := by unfold Statement; decide

end Sys2Proof
end

