-- ==== Sys2Proof/Laws/Rules.lean ====
section
/-! SUPPORT. One lemma per command's own rule: exactly when it succeeds, with what, and what it can raise. -/

namespace Sys2Proof.Machine

/-- LDC succeeds exactly when no check of R92 fails, and then the path, the leaf and the entry are written. -/
theorem loadPair_ok_iff {len : CodeLen} {ch : Ch} {code : CodeBits} {s t : State} :
    loadPair len ch code s = .ok t ↔
      len ≠ 0 ∧ (clutAt s.clut ch).valid = false ∧ ∃ stop b bs,
        descend s.node 0 (pathBits len.toNat code) = .ok (stop, b :: bs) ∧
        s.nalloc.toNat + (b :: bs).length ≤ 512 ∧
        t = writeClut ch ⟨true, len, code⟩ (growPath ch stop (b :: bs) s) := by
  unfold loadPair
  by_cases hl : len = 0
  · simp [hl]
  by_cases hv : (clutAt s.clut ch).valid = true
  · simp [hv]
  simp only [hl, hv, if_false, ne_eq, not_false_eq_true, true_and, Bool.false_eq_true]
  cases hd : descend s.node 0 (pathBits len.toNat code) with
  | error c => simp
  | ok p =>
    obtain ⟨stop, rest⟩ := p
    cases rest with
    | nil => simp
    | cons b bs =>
      by_cases hc : 512 < s.nalloc.toNat + (b :: bs).length
      · simp only [List.length_cons] at hc
        simp [hc]
      · simp only [List.length_cons] at hc
        simp only [List.length_cons, Config.nnodes, hc, if_false, Except.ok.injEq, Prod.mk.injEq,
          List.cons.injEq]
        constructor
        · rintro rfl
          exact ⟨stop, b, bs, ⟨rfl, rfl, rfl⟩, Nat.le_of_not_lt hc, rfl⟩
        · rintro ⟨_, _, _, ⟨rfl, rfl, rfl⟩, -, rfl⟩
          rfl

/-- LDC raises InvalidCodeTable or CapacityExceeded only (R92). -/
theorem loadPair_error {len : CodeLen} {ch : Ch} {code : CodeBits} {s : State} {c : Cause}
    (h : loadPair len ch code s = .error c) : c = .invalidCodeTable ∨ c = .capacityExceeded := by
  unfold loadPair at h
  split at h
  · cases h; simp
  split at h
  · cases h; simp
  split at h
  · next hd => cases h; exact Or.inl (descend_error hd)
  · cases h; simp
  · split at h
    · cases h; simp
    · cases h

/-- TFIN succeeds exactly on a table that is not empty (R82). -/
theorem finishTable_ok_iff {s t : State} : finishTable s = .ok t ↔
    (nodeAt s.node 0).tag ≠ .empty ∧ t = { s with trdy := true, cur := 0 } := by
  unfold finishTable
  split <;> simp_all [eq_comm]

/-- ENC succeeds exactly when the character has a code and the counter has room (R100). -/
theorem packChar_ok_iff {ch : Ch} {s t : State} : packChar ch s = .ok t ↔
    (clutAt s.clut ch).valid = true ∧ bitBase s + (clutAt s.clut ch).len.toNat ≤ 4294967295 ∧
      t = { packBits (codeBits (clutAt s.clut ch)) s with
        pbits := BitVec.ofNat 32 (bitBase s + (clutAt s.clut ch).len.toNat), psym := true } := by
  unfold packChar
  by_cases hv : (clutAt s.clut ch).valid = true
  · by_cases hc : 4294967295 < bitBase s + (clutAt s.clut ch).len.toNat
    · simp [hv, hc]
    · simp [hv, hc, Nat.le_of_not_lt hc, eq_comm]
  · simp [hv]

/-- EFLUSH succeeds exactly when a session is open (R101). -/
theorem flushPacker_ok_iff {s t : State} : flushPacker s = .ok t ↔
    s.psym = true ∧ t = { s with
      acc := 0, acnt := 0, psym := false
      outb := if 0 < s.acnt.toNat then s.outb ++ [paddedGroup s] else s.outb } := by
  unfold flushPacker
  cases hp : s.psym
  · simp
  · by_cases ha : 0 < s.acnt.toNat <;> simp [ha, emitB, eq_comm]

/-- DECBIT succeeds exactly when its move does (R110). -/
theorem moveOne_ok_iff {bit : Bool} {s t : State} : moveOne bit s = .ok t ↔
    ∃ nxt oc, tstep s.node s.cur bit = .ok (nxt, oc) ∧
      t = { s with cur := nxt, outc := s.outc ++ oc.toList } := by
  unfold moveOne
  cases tstep s.node s.cur bit with
  | error c => simp
  | ok p =>
    obtain ⟨nxt, oc⟩ := p
    constructor
    · intro h
      cases h
      exact ⟨nxt, oc, rfl, rfl⟩
    · rintro ⟨_, _, h, rfl⟩
      cases h
      rfl

/-- DECB succeeds exactly when all its moves do (R111). -/
theorem decodeGroup_ok_iff {n : BitVec 4} {g : Byte} {s t : State} : decodeGroup n g s = .ok t ↔
    ∃ last out, walk s.node s.cur (groupBits n g) = .ok (last, out) ∧
      t = { s with cur := last, outc := s.outc ++ out } := by
  unfold decodeGroup
  cases walk s.node s.cur (groupBits n g) with
  | error c => simp
  | ok p =>
    obtain ⟨last, out⟩ := p
    constructor
    · intro h
      cases h
      exact ⟨last, out, rfl, rfl⟩
    · rintro ⟨_, _, h, rfl⟩
      cases h
      rfl

/-- What a command's own rule leaves alone, command by command, when it succeeds. -/
theorem ruleOf_ok_fields {i : Instr} {s t : State} (h : ruleOf i s = .ok t) :
    match i with
    | .reset => t = { State.reset with input := s.input }
    | .tclr => t = clearTable s
    | .ldc _ _ _ => t = { s with node := t.node, nalloc := t.nalloc, clut := t.clut }
    | .tfin => t = { s with trdy := true, cur := 0 }
    | .enc _ => t = { s with acc := t.acc, acnt := t.acnt, psym := true, pbits := t.pbits, outb := t.outb }
    | .eflush => t = { s with acc := 0, acnt := 0, psym := false, outb := t.outb }
    | .decbit _ => t = { s with cur := t.cur, outc := t.outc }
    | .decb _ _ => t = { s with cur := t.cur, outc := t.outc }
    | .trst => t = { s with cur := 0 } := by
  cases i with
  | reset => cases h; rfl
  | tclr => cases h; rfl
  | ldc len ch code =>
    obtain ⟨-, -, stop, b, bs, -, -, rfl⟩ := loadPair_ok_iff.mp h
    dsimp only
    rw [growPath_frame]
    rfl
  | tfin => exact (finishTable_ok_iff.mp h).2
  | enc ch =>
    obtain ⟨-, -, rfl⟩ := packChar_ok_iff.mp h
    dsimp only
    rw [packBits_frame]
  | eflush => obtain ⟨-, rfl⟩ := flushPacker_ok_iff.mp h; rfl
  | decbit b => obtain ⟨n, oc, -, rfl⟩ := moveOne_ok_iff.mp h; rfl
  | decb n g => obtain ⟨l, o, -, rfl⟩ := decodeGroup_ok_iff.mp h; rfl
  | trst => cases h; rfl

/-- Everything a command can do (R143): it is ignored, faults and records only that, or does what its rule gives. -/
theorem exec_cases {i : Instr} {s t : State} (h : exec i s = .next t) :
    t = s ∧ s.err = true ∨
    (s.err = false ∧ ∃ c, t = faultEntry c (encode i) s) ∨
    (disposition i s.phase = .executes ∧ ruleOf i s = .ok t) := by
  rw [exec_eq_runCommand] at h
  rcases runCommand_cases i (ruleOf i) s with ⟨hd, h'⟩ | ⟨hd, h'⟩ | ⟨hd, u, hu, h'⟩ | ⟨hd, c, hc, h'⟩ <;>
    rw [h'] at h <;> cases h
  · exact Or.inl ⟨rfl, (phase_faulted s).mp ((disposition_ignored i _).mp hd).1⟩
  · refine Or.inr (Or.inl ⟨?_, _, rfl⟩)
    cases he : s.err
    · rfl
    · rw [(phase_faulted s).mpr he, disposition_faulted] at hd
      split at hd <;> cases hd
  · exact Or.inr (Or.inr ⟨hd, hu⟩)
  · refine Or.inr (Or.inl ⟨?_, c, rfl⟩)
    cases he : s.err
    · rfl
    · rw [(phase_faulted s).mpr he, disposition_faulted] at hd
      split at hd
      · next hi => subst hi; cases hc
      · cases hd

end Sys2Proof.Machine
end

