-- ==== Sys2Proof/Laws/Safety.lean ====
section
/-! SUPPORT. The host's pending moves are no part of the invariants, and TCLR makes the cleared launch state. -/

namespace Sys2Proof.Machine

/-- R26 says nothing of the host's pending moves. -/
theorem inv_withInput {s : State} (h : Inv s) (moves : List HostMove) : Inv { s with input := moves } where
  memory := h.memory
  entries := ⟨h.entries.codeFits, h.entries.invalidZero⟩
  packer := ⟨h.packer.highZero, h.packer.loadingZero, h.packer.openCount, h.packer.closedEmpty⟩
  faults := ⟨h.faults.noneRecorded, h.faults.causeNamed⟩
  tree := ⟨h.tree.allocRange, h.tree.childRange, h.tree.hasChild, h.tree.oneParent, h.tree.hasParent,
    h.tree.rootNotLeaf, h.tree.rootEmpty, h.tree.tagged, h.tree.links, h.tree.chars, h.tree.unallocated,
    h.tree.cursor, h.tree.loadingAtRoot, h.tree.readyRooted⟩
  codes := ⟨h.codes.leafOf, h.codes.codeOf, h.codes.oneLeaf, h.codes.prefixFree, h.codes.emptyTable⟩

/-- TCLR leads from every state with no fault recorded to the cleared launch state (R81, R191). -/
theorem cleared_clearTable {s : State} (hf : FaultInv s) (he : s.err = false) : Cleared (clearTable s) :=
  ⟨he, (hf.noneRecorded he).1, (hf.noneRecorded he).2, rfl, rfl, rfl, rfl, rfl, rfl, rfl, rfl, rfl⟩

end Sys2Proof.Machine
end

