-- ==== Sys2Proof/Tests/Slice0.lean ====
section
/-! SUPPORT. Tests. Expected words and states are those of spec/95_test_vectors.md and of the worked examples of
the rules; the witness theorems show states and operands that meet the statements' hypotheses. -/

namespace Sys2Proof.Tests

open Sys2Proof.Machine

/-! ## WellFormed: each check refuses an ill-formed term (R63, R64) -/

theorem test_wellFormed_refuses_code_beyond_length : (Instr.ldc 1 0x61 2).wellFormed = false := by decide
theorem test_wellFormed_refuses_code_of_empty_length : (Instr.ldc 0 0x61 1).wellFormed = false := by decide
theorem test_wellFormed_refuses_zero_bits : (Instr.decb 0 0x40).wellFormed = false := by decide
theorem test_wellFormed_refuses_nine_bits : (Instr.decb 9 0x40).wellFormed = false := by decide
theorem test_wellFormed_admits_boundaries :
    (Instr.ldc 15 0x7A 0x7FFF).WellFormed ∧ (Instr.ldc 0 0x61 0).WellFormed ∧ (Instr.ldc 1 0x61 1).WellFormed ∧
    (Instr.decb 1 0xFF).WellFormed ∧ (Instr.decb 8 0xFF).WellFormed ∧ (Instr.enc 0xFF).WellFormed := by decide

/-! ## Decoding: words of 95_test_vectors.md section 2.1, the fields written out bit by bit (R60, R61) -/

theorem test_decode_reset : decode 0b0001_0000_00000000_0000000000000000 = .ok .reset := by decide
theorem test_decode_tclr : decode 0b0010_0000_00000000_0000000000000000 = .ok .tclr := by decide
theorem test_decode_ldc_m : decode 0b0011_0011_01101101_0000000000000100 = .ok (.ldc 3 0x6D 4) := by decide
theorem test_decode_ldc_longest : decode 0b0011_1111_01111010_0111111111111111 = .ok (.ldc 15 0x7A 0x7FFF) := by
  decide
theorem test_decode_tfin : decode 0b0100_0000_00000000_0000000000000000 = .ok .tfin := by decide
theorem test_decode_enc_a : decode 0b0101_0000_01100001_0000000000000000 = .ok (.enc 0x61) := by decide
theorem test_decode_eflush : decode 0b0110_0000_00000000_0000000000000000 = .ok .eflush := by decide
theorem test_decode_decbit : decode 0b0111_0000_00000000_0000000000000000 = .ok (.decbit false) ∧
    decode 0b0111_0000_00000000_0000000000000001 = .ok (.decbit true) := by decide
theorem test_decode_decb : decode 0b1000_0010_01000000_0000000000000000 = .ok (.decb 2 0x40) := by decide
theorem test_decode_trst : decode 0b1001_0000_00000000_0000000000000000 = .ok .trst := by decide
theorem test_decode_illegal : decode 0x00000000 = .error .reservedOpcode ∧
    decode 0xA0000000 = .error .reservedOpcode ∧ decode 0xFFFFFFFF = .error .reservedOpcode ∧
    decode 0x10000001 = .error .reservedField ∧ decode 0x31610002 = .error .codeBeyondLength ∧
    decode 0x31618000 = .error .reservedField ∧ decode 0x80400000 = .error .bitCount ∧
    decode 0x89400000 = .error .bitCount ∧ decode 0x8F400000 = .error .bitCount ∧
    decode 0x50610001 = .error .reservedField ∧ decode 0x51610000 = .error .reservedField ∧
    decode 0x70000002 = .error .reservedField := by decide
theorem test_encode_words : encode (.ldc 1 0x61 0) = 0x31610000 ∧ encode (.ldc 2 0x69 3) = 0x32690003 ∧
    encode (.enc 0x6D) = 0x506D0000 ∧ encode (.decb 5 0xB8) = 0x85B80000 ∧ encode (.decbit true) = 0x70000001 ∧
    encode .trst = 0x90000000 := by decide

/-! ## One step of each command -/

/-- The state a command ends in (every command ends in one, `exec_next`). -/
def after (i : Instr) (s : State) : State :=
  match exec i s with
  | .next t => t
  | .fault _ => s
  | .refused _ => s

/-- The table {s:"0", m:"100", p:"101", i:"11"} of program P3, as its end state lists it. -/
def missNodes : List (Nat × Node) :=
  [(0, ⟨.internal, 0, 1, 2⟩), (1, ⟨.leaf, 0x73, 0, 0⟩), (2, ⟨.internal, 0, 3, 6⟩), (3, ⟨.internal, 0, 4, 5⟩),
    (4, ⟨.leaf, 0x6D, 0, 0⟩), (5, ⟨.leaf, 0x70, 0, 0⟩), (6, ⟨.leaf, 0x69, 0, 0⟩)]

/-- The CLUT of program P3. -/
def missClut : List (Nat × ClutEntry) :=
  [(0x69, ⟨true, 2, 3⟩), (0x6D, ⟨true, 3, 4⟩), (0x70, ⟨true, 3, 5⟩), (0x73, ⟨true, 1, 0⟩)]

/-- P3 after word 6: the table ready. -/
def missReady : State := { State.reset with node := missNodes, nalloc := 7, clut := missClut, trdy := true }

/-- R80's example: from ERR = 1, CAUSE = 4, RESET gives STATUS 0x00000008, ECMD 0, NALLOC 1. -/
theorem test_reset_from_faulted : let t := after .reset { missReady with err := true, cause := 4 }
    statusWord t = 0x00000008 ∧ t.ecmd = 0 ∧ t.nalloc = 1 ∧ t.node = [] := by decide

/-- Section 2.2: TCLR after a decode gives STATUS 0x00000008, OUTC kept. -/
theorem test_tclr_keeps_the_output : let t := after .tclr { missReady with outc := [0x61, 0x62] }
    statusWord t = 0x00000008 ∧ t.nalloc = 1 ∧ t.clut = [] ∧ t.outc = [0x61, 0x62] := by decide

/-- R92's worked example: LDC 'p',"101" with 's' and 'm' loaded creates NODE[5] as NODE[3]'s right child. -/
theorem test_ldc_shares_a_prefix : let s := { State.reset with
      node := [(0, ⟨.internal, 0, 1, 2⟩), (1, ⟨.leaf, 0x73, 0, 0⟩), (2, ⟨.internal, 0, 3, 0⟩),
        (3, ⟨.internal, 0, 4, 0⟩), (4, ⟨.leaf, 0x6D, 0, 0⟩)]
      nalloc := 5, clut := [(0x6D, ⟨true, 3, 4⟩), (0x73, ⟨true, 1, 0⟩)] }
    let t := after (.ldc 3 0x70 5) s
    t.nalloc = 6 ∧ nodeAt t.node 5 = ⟨.leaf, 0x70, 0, 0⟩ ∧ nodeAt t.node 3 = ⟨.internal, 0, 4, 5⟩ ∧
    clutAt t.clut 0x70 = ⟨true, 3, 5⟩ := by decide

/-- R93: LDC 'y',"010" with 'x':"01" loaded is rejected, CAUSE 3, ECMD 0x33790002, NALLOC still 3. -/
theorem test_ldc_rejects_a_prefix : let s := { State.reset with
      node := [(0, ⟨.internal, 0, 1, 0⟩), (1, ⟨.internal, 0, 0, 2⟩), (2, ⟨.leaf, 0x78, 0, 0⟩)]
      nalloc := 3, clut := [(0x78, ⟨true, 2, 1⟩)] }
    let t := after (.ldc 3 0x79 2) s
    statusWord t = 0x00000309 ∧ t.ecmd = 0x33790002 ∧ t.nalloc = 3 := by decide

/-- Section 2.2: TFIN on an empty table, STATUS 0x00000309, ECMD 0x40000000. -/
theorem test_tfin_on_an_empty_table : let t := after .tfin State.reset
    statusWord t = 0x00000309 ∧ t.ecmd = 0x40000000 ∧ t.nalloc = 1 := by decide

/-- P3 word 6: STATUS 0x0000000A. -/
theorem test_tfin_makes_ready : statusWord (after .tfin { missReady with trdy := false }) = 0x0000000A := by decide

/-- P3 word 11: ENC 'i' from ACC 0x4C, ACNT 7 emits 0x99 and leaves ACC 0x01, ACNT 1, PBITS 9, STATUS 0x1E. -/
theorem test_enc_completes_a_group :
    let t := after (.enc 0x69) { missReady with acc := 0x4C, acnt := 7, psym := true, pbits := 7 }
    t.outb = [0x99] ∧ t.acc = 0x01 ∧ t.pbits = 9 ∧ statusWord t = 0x0000001E := by decide

/-- Section 2.6: PBITS at 2^32 - 1 makes ENC fault with CAUSE 6, PBITS unchanged. -/
theorem test_enc_never_wraps :
    let t := after (.enc 0x73) { missReady with psym := true, pbits := 0xFFFFFFFF, acnt := 7 }
    t.cause = 6 ∧ t.pbits = 0xFFFFFFFF ∧ t.acnt = 7 := by decide

/-- P3 word 18: EFLUSH from ACC 0x17, ACNT 5 emits 0xB8; PBITS stays 21, STATUS 0x0A. -/
theorem test_eflush_pads :
    let t := after .eflush { missReady with acc := 0x17, acnt := 5, psym := true, pbits := 21 }
    t.outb = [0xB8] ∧ t.acc = 0 ∧ t.pbits = 21 ∧ statusWord t = 0x0000000A := by decide

/-- Section 2.4: EFLUSH with no session, STATUS 0x0000010B, ECMD 0x60000000. -/
theorem test_eflush_of_nothing : let t := after .eflush missReady
    statusWord t = 0x0000010B ∧ t.ecmd = 0x60000000 ∧ t.outb = [] := by decide

/-- R110: DECBIT 1 from the root stays on a branch point, STATUS 0x00000002; DECBIT 0 there goes on. -/
theorem test_decbit_moves : let t := after (.decbit true) missReady
    t.cur = 2 ∧ t.outc = [] ∧ statusWord t = 0x00000002 := by decide

/-- A leaf is emitted and the traverser returns to the root (R109). -/
theorem test_decbit_emits : let t := after (.decbit true) { missReady with cur := 2 }
    t.cur = 0 ∧ t.outc = [0x69] := by decide

/-- P3 word 19: DECB 0x99, 8 emits "miss" and leaves CUR 2. -/
theorem test_decb_emits_miss : let t := after (.decb 8 0x99) missReady
    t.outc = [0x6D, 0x69, 0x73, 0x73] ∧ t.cur = 2 ∧ statusWord t = 0x00000002 := by decide

/-- Section 2.5: DECB 0x10, 4 on {a:"0"}: nothing emitted, STATUS 0x0000070B, ECMD 0x84100000. -/
theorem test_decb_is_atomic : let s := { State.reset with
      node := [(0, ⟨.internal, 0, 1, 0⟩), (1, ⟨.leaf, 0x61, 0, 0⟩)], nalloc := 2
      clut := [(0x61, ⟨true, 1, 0⟩)], trdy := true }
    let t := after (.decb 4 0x10) s
    statusWord t = 0x0000070B ∧ t.ecmd = 0x84100000 ∧ t.outc = [] ∧ t.cur = 0 := by decide

/-- R83's example: TRST in the middle of a walk. -/
theorem test_trst_returns : (after .trst { missReady with cur := 2 }).cur = 0 := by decide

/-- Section 2.2: in FAULTED a TCLR is ignored. -/
theorem test_faulted_ignores_tclr : after .tclr { missReady with err := true, cause := 4 } =
    { missReady with err := true, cause := 4 } := by decide

/-- R132: the host's code table of "mississippi" under the insertion-order tie-break. -/
theorem test_host_codes_of_mississippi :
    hostCodes (fun _ => 0) [0x6D, 0x69, 0x73, 0x73, 0x69, 0x73, 0x73, 0x69, 0x70, 0x70, 0x69] =
      some [(0x73, [false]), (0x6D, [true, false, false]), (0x70, [true, false, true]), (0x69, [true, true])] := by
  decide

/-- The word the host places is the word the next step runs (R20). -/
theorem test_withFetchWord_runs_tfin :
    step (State.reset.withFetchWord 32 0x40000000) = .next (recordFault 3 0x40000000 State.reset) := by rfl

/-! ## Witnesses: the table {a:"0", b:"10"}, not full, loading or ready, loaded in either order -/

/-- The tree of {a:"0", b:"10"}, as the loads 'a' then 'b' (or, `swapped`, 'b' then 'a') number its nodes. -/
def abNodesIn (swapped : Bool) : List (Nat × Node) :=
  if swapped then
    [(0, ⟨.internal, 0, 3, 1⟩), (1, ⟨.internal, 0, 2, 0⟩), (2, ⟨.leaf, 0x62, 0, 0⟩), (3, ⟨.leaf, 0x61, 0, 0⟩)]
  else
    [(0, ⟨.internal, 0, 1, 2⟩), (1, ⟨.leaf, 0x61, 0, 0⟩), (2, ⟨.internal, 0, 3, 0⟩), (3, ⟨.leaf, 0x62, 0, 0⟩)]

/-- The CLUT of {a:"0", b:"10"}. -/
def abClut : List (Nat × ClutEntry) := [(0x61, ⟨true, 1, 0⟩), (0x62, ⟨true, 2, 2⟩)]

/-- The table loaded in the order given, LOADING or READY. -/
def abIn (swapped ready : Bool) : State :=
  { State.reset with node := abNodesIn swapped, nalloc := 4, clut := abClut, trdy := ready }

/-- The table loaded, 'a' first, LOADING or READY. -/
abbrev ab (ready : Bool) : State := abIn false ready

/-- The loads of the two pairs in the two orders end in these states. -/
theorem test_load_orders :
    execAll [.ldc 1 0x61 0, .ldc 2 0x62 2] State.reset = .next (abIn false false) ∧
    execAll [.ldc 2 0x62 2, .ldc 1 0x61 0] State.reset = .next (abIn true false) := ⟨rfl, rfl⟩

theorem nodeAt_ab (w : Bool) (i : NodeIdx) : nodeAt (abNodesIn w) i =
    if i = 0 then ⟨.internal, 0, if w then 3 else 1, if w then 1 else 2⟩
    else if i = 1 then (if w then ⟨.internal, 0, 2, 0⟩ else ⟨.leaf, 0x61, 0, 0⟩)
    else if i = 2 then (if w then ⟨.leaf, 0x62, 0, 0⟩ else ⟨.internal, 0, 3, 0⟩)
    else if i = 3 then (if w then ⟨.leaf, 0x61, 0, 0⟩ else ⟨.leaf, 0x62, 0, 0⟩) else emptyNode := by
  have key : ∀ k : Nat, k < 512 → (k = i.toNat ↔ i = BitVec.ofNat 9 k) := by
    intro k hk
    constructor
    · rintro rfl; simp
    · rintro rfl; simp [Nat.mod_eq_of_lt hk]
  cases w <;> simp [nodeAt, abNodesIn, readAt, key]

theorem clutAt_ab (c : Ch) : clutAt abClut c =
    if c = 0x61 then ⟨true, 1, 0⟩ else if c = 0x62 then ⟨true, 2, 2⟩ else noCode := by
  have key : ∀ k : Nat, k < 256 → (k = c.toNat ↔ c = BitVec.ofNat 8 k) := by
    intro k hk
    constructor
    · rintro rfl; simp
    · rintro rfl; simp [Nat.mod_eq_of_lt hk]
  simp [clutAt, abClut, readAt, key]

theorem entryInv_ab (w r : Bool) : EntryInv (abIn w r) := by
  constructor
  · intro c
    simp only [abIn, clutAt_ab]
    split_ifs <;> simp [noCode]
  · intro c
    simp only [abIn, clutAt_ab]
    split_ifs <;> simp

theorem packerInv_ab (w r : Bool) : PackerInv (abIn w r) := by
  constructor <;> simp [abIn, State.reset]

theorem faultInv_ab (w r : Bool) : FaultInv (abIn w r) := by
  constructor <;> simp [abIn, State.reset]

/-- The allocated nodes but the root. -/
theorem lt_four {j : NodeIdx} (h0 : 0 < j.toNat) (hj : j.toNat < 4) : j = 1 ∨ j = 2 ∨ j = 3 := by
  have : j.toNat = 1 ∨ j.toNat = 2 ∨ j.toNat = 3 := by omega
  rcases this with h | h | h
  · exact Or.inl (BitVec.eq_of_toNat_eq h)
  · exact Or.inr (Or.inl (BitVec.eq_of_toNat_eq h))
  · exact Or.inr (Or.inr (BitVec.eq_of_toNat_eq h))

theorem treeInv_ab (w r : Bool) : TreeInv (abIn w r) := by
  constructor
  case allocRange => simp [abIn]
  case childRange =>
    intro i b
    simp only [abIn, nodeAt_ab]
    split_ifs <;> cases b <;> simp_all [Node.child, emptyNode]
  case hasChild =>
    intro i
    simp only [abIn, nodeAt_ab]
    split_ifs <;> simp [emptyNode]
  case oneParent =>
    intro i j a b
    simp only [abIn, nodeAt_ab]
    cases w <;> simp only [Bool.false_eq_true, if_true, if_false] <;> split_ifs <;> cases a <;> cases b <;>
      simp_all [Node.child, emptyNode]
  case hasParent =>
    intro j h0 hj
    rcases lt_four h0 (by simpa [abIn] using hj) with rfl | rfl | rfl <;> cases w
    · exact ⟨0, false, rfl⟩
    · exact ⟨0, true, rfl⟩
    · exact ⟨0, true, rfl⟩
    · exact ⟨1, false, rfl⟩
    · exact ⟨2, false, rfl⟩
    · exact ⟨0, false, rfl⟩
  case rootNotLeaf => simp [abIn, nodeAt_ab]
  case rootEmpty => simp [abIn, nodeAt_ab]
  case tagged =>
    intro i h0 hi
    rcases lt_four h0 (by simpa [abIn] using hi) with rfl | rfl | rfl <;> cases w <;> simp [abIn, nodeAt_ab]
  case links =>
    intro i
    simp only [abIn, nodeAt_ab]
    split_ifs <;> simp [emptyNode]
  case chars =>
    intro i
    simp only [abIn, nodeAt_ab]
    split_ifs <;> simp [emptyNode]
  case unallocated =>
    intro i hi
    have hi' : 4 ≤ i.toNat := by simpa [abIn] using hi
    simp only [abIn, nodeAt_ab]
    rw [if_neg, if_neg, if_neg, if_neg] <;> rintro rfl <;> simp at hi'
  case cursor => exact Or.inl rfl
  case loadingAtRoot => intro _; rfl
  case readyRooted => intro _; cases w <;> rfl

theorem codeInv_ab (w r : Bool) : CodeInv (abIn w r) := by
  constructor
  case leafOf =>
    intro c
    simp only [abIn, clutAt_ab]
    split_ifs with h1 h2
    · intro _; subst h1; cases w
      · exact ⟨1, by decide, by decide⟩
      · exact ⟨3, by decide, by decide⟩
    · intro _; subst h2; cases w
      · exact ⟨3, by decide, by decide⟩
      · exact ⟨2, by decide, by decide⟩
    · simp [noCode]
  case codeOf =>
    intro i
    simp only [abIn, nodeAt_ab]
    split_ifs <;> first | (intro _; decide) | simp [emptyNode]
  case oneLeaf =>
    intro i j
    simp only [abIn, nodeAt_ab]
    cases w <;> simp only [Bool.false_eq_true, if_true, if_false] <;> split_ifs <;> simp_all [emptyNode]
  case prefixFree =>
    intro c d
    simp only [abIn, clutAt_ab]
    split_ifs <;> intro hc hd h <;> simp_all [codeBits, pathBits, noCode]
  case emptyTable =>
    constructor
    · intro h; cases w <;> cases h
    · intro h; cases h 0x61

/-- The invariants of R26 hold with this table loaded in either order, in LOADING and in READY. -/
theorem inv_ab (w r : Bool) : Inv (abIn w r) where
  memory := by revert w r; decide
  entries := entryInv_ab w r
  packer := packerInv_ab w r
  faults := faultInv_ab w r
  tree := treeInv_ab w r
  codes := codeInv_ab w r

/-! ## Witnesses for the statements' hypotheses, a boundary value for each clause -/

/-- READY with a fault recorded. -/
def abFaulted : State := { ab true with err := true, cause := 7, ecmd := 0x70000001 }

/-- READY with a session open and seven bits held. -/
def abOpen : State := { ab true with acc := 0x2A, acnt := 7, psym := true, pbits := 7 }

/-- READY with a session of eight bits open, all of them emitted. -/
def abWhole : State := { ab true with psym := true, pbits := 8, outb := [0x55] }

theorem witness_DecodeOfEncodeIsTheCommand :
    (Instr.ldc 15 0xFF 0x7FFF).WellFormed ∧ (Instr.decb 8 0xFF).WellFormed := by decide

theorem witness_LegalWordIsItsCommandsEncoding : decode 0x3F7A7FFF = .ok (.ldc 15 0x7A 0x7FFF) := by decide

theorem witness_DecodingFollowsTheMatchMaskTable :
    ((0x3F7A7FFF : Word) &&& 0xF0008000 = 0x30000000 ∧
      (0x3F7A7FFF : Word).extractLsb' 0 15 >>> ((0x3F7A7FFF : Word).extractLsb' 24 4).toNat = 0) ∧
    (0x50FF0000 : Word) &&& 0xFF00FFFF = 0x50000000 ∧ (0x70000001 : Word) &&& 0xFFFFFFFE = 0x70000000 ∧
    ((0x81FF0000 : Word) &&& 0xF000FFFF = 0x80000000 ∧ 1 ≤ ((0x81FF0000 : Word).extractLsb' 24 4).toNat) ∧
    ((0x88FF0000 : Word) &&& 0xF000FFFF = 0x80000000 ∧ ((0x88FF0000 : Word).extractLsb' 24 4).toNat ≤ 8) ∧
    (0x90000000 : Word) &&& 0xFFFFFFFF = 0x90000000 := by decide

theorem witness_DecodingFollowsTheMatchMaskTable_illegal : let w : Word := 0x31610002
    w &&& 0xFFFFFFFF ≠ 0x10000000 ∧ w &&& 0xFFFFFFFF ≠ 0x20000000 ∧
    ¬ (w &&& 0xF0008000 = 0x30000000 ∧ w.extractLsb' 0 15 >>> (w.extractLsb' 24 4).toNat = 0) ∧
    w &&& 0xFFFFFFFF ≠ 0x40000000 ∧ w &&& 0xFF00FFFF ≠ 0x50000000 ∧ w &&& 0xFFFFFFFF ≠ 0x60000000 ∧
    w &&& 0xFFFFFFFE ≠ 0x70000000 ∧
    ¬ (w &&& 0xF000FFFF = 0x80000000 ∧ 1 ≤ (w.extractLsb' 24 4).toNat ∧ (w.extractLsb' 24 4).toNat ≤ 8) ∧
    w &&& 0xFFFFFFFF ≠ 0x90000000 := by decide

theorem witness_AssembledPairCarriesItsBitString :
    (List.replicate 15 true).length ≤ 15 ∧ ([] : List Bool).length ≤ 15 := by decide

theorem witness_ResetCommandResetsTheBlock :
    ((ab true).withFetchWord 32 0x1FFFFFFF).input = [.command 0x1FFFFFFF] ∧
    (0x1FFFFFFF : Word).extractLsb' 28 4 = 1 ∧ (0x1FFFFFFF : Word) ≠ 0x10000000 ∧
    ((ab true).withFetchWord 32 0x1FFFFFFF).err = false ∧
    (abFaulted.withFetchWord 32 0x1FFFFFFF).err = true := by decide

theorem witness_StepRunsTheDecodedCommand :
    (ab false |>.withFetchWord 32 0x40000000).input = .command 0x40000000 :: (ab false).input ∧
    decode 0x40000000 = .ok .tfin := by decide

theorem witness_IllegalWordFaults :
    ((ab true).withFetchWord 32 0xFFFFFFFF).input = [.command 0xFFFFFFFF] ∧
    ((ab true).withFetchWord 32 0xFFFFFFFF).err = false ∧ decode 0xFFFFFFFF = .error .reservedOpcode := by decide

theorem witness_FaultedIgnoresEveryWordButReset :
    (abFaulted.withFetchWord 32 0x20000000).input = [.command 0x20000000] ∧
    (abFaulted.withFetchWord 32 0x20000000).err = true ∧ (0x20000000 : Word) ≠ 0x10000000 := by decide

theorem witness_ReadsAndIdlingChangeNothing :
    ({ ab true with input := [.read 7] } : State).input = .read 7 :: [] ∧ (ab true).input = [] := by decide

theorem witness_CommandOutOfPhaseFaults :
    ((ab true).err = false ∧ (ab true).trdy = true) ∧ (ab false).err = false ∧ (ab false).trdy = false := by decide

theorem witness_FaultingCommandChangesOnlyTheFaultRegisters :
    (ab true).err = false ∧ exec .tfin (ab true) = .next (after .tfin (ab true)) ∧
    (after .tfin (ab true)).err = true := ⟨rfl, rfl, rfl⟩

theorem witness_FaultRecordsTheWholeWordIssued :
    ((ab true).withFetchWord 32 0x3F618000).input = [.command 0x3F618000] ∧
    ((ab true).withFetchWord 32 0x3F618000).err = false ∧
    step ((ab true).withFetchWord 32 0x3F618000) = .next (recordFault 4 0x3F618000 (ab true)) ∧
    (recordFault 4 0x3F618000 (ab true)).err = true := ⟨rfl, rfl, rfl, rfl⟩

theorem witness_OnlyResetLeavesFaulted :
    abFaulted.err = true ∧
    step (abFaulted.withFetchWord 32 0x10000000) = .next State.reset ∧
    step (abFaulted.withFetchWord 32 0x20000000) = .next abFaulted := ⟨rfl, rfl, rfl⟩

theorem witness_OnlyResetLeavesFaulted_reset_input :
    ({ abFaulted with input := [.reset] } : State).err = true ∧
    ({ abFaulted with input := [.reset] } : State).input = .reset :: [] ∧
    step { abFaulted with input := [.reset] } = .next State.reset := ⟨rfl, rfl, rfl⟩

theorem witness_TclrClearsTableTreeTraverserAndPacker :
    (ab false).err = false ∧ abOpen.err = false ∧ abOpen.psym = true := by decide

theorem witness_TfinMakesTheTableReadyOrRefusesAnEmptyOne :
    ((ab false).err = false ∧ (ab false).trdy = false ∧ (nodeAt (ab false).node 0).tag ≠ .empty) ∧
    ((ab true).err = false ∧ (ab true).trdy = true) ∧
    State.reset.err = false ∧ State.reset.trdy = false ∧ (nodeAt State.reset.node 0).tag = .empty := by decide

theorem witness_TrstReturnsTheTraverserToTheRoot : ({ ab true with cur := 2 } : State).err = false := by decide

/-- LDC 'c',"110" on {a:"0", b:"10"}: one step into the tree, two records to create. -/
theorem witness_LdcAddsTheRestOfThePath : let s := ab false
    s.err = false ∧ s.trdy = false ∧ (3 : CodeLen) ≠ 0 ∧ (clutAt s.clut 0x63).valid = false ∧
    descend s.node 0 (pathBits 3 6) = .ok (2, [true, false]) ∧
    s.nalloc.toNat + [true, false].length ≤ 512 := by decide

theorem witness_LdcAddsTheRestOfThePath_last_record : let s := { ab false with nalloc := 511 }
    s.err = false ∧ s.trdy = false ∧ (clutAt s.clut 0x63).valid = false ∧
    descend s.node 0 (pathBits 2 3) = .ok (2, [true]) ∧ s.nalloc.toNat + [true].length ≤ 512 := by decide

theorem witness_LdcPutsTheLeafAtTheEndOfItsPath :
    TreeInv (ab false) ∧ (ab false).err = false ∧
    exec (.ldc 3 0x63 6) (ab false) = .next (after (.ldc 3 0x63 6) (ab false)) ∧
    (after (.ldc 3 0x63 6) (ab false)).err = false := ⟨treeInv_ab false false, rfl, rfl, rfl⟩

theorem witness_LdcRejectsEmptyCodeAndRepeatedCharacter :
    (ab false).err = false ∧ (ab false).trdy = false ∧ (0 : CodeLen) = 0 ∧
    (clutAt (ab false).clut 0x61).valid = true := by decide

/-- "0" is loaded; "01" extends it, "0" equals it, and "1" is a prefix of the loaded "10". -/
theorem witness_LdcRejectsEveryConflictingCode :
    Inv (ab false) ∧ (ab false).err = false ∧ (ab false).trdy = false ∧
    (clutAt (ab false).clut 0x61).valid = true ∧ (clutAt (ab false).clut 0x62).valid = true ∧
    Conflict (codeBits (clutAt (ab false).clut 0x61)) (pathBits (2 : CodeLen).toNat 1) ∧
    Conflict (codeBits (clutAt (ab false).clut 0x61)) (pathBits (1 : CodeLen).toNat 0) ∧
    Conflict (codeBits (clutAt (ab false).clut 0x62)) (pathBits (1 : CodeLen).toNat 1) :=
  ⟨inv_ab false false, rfl, rfl, rfl, rfl, Or.inl ⟨[true], rfl⟩, Or.inl ⟨[], rfl⟩, Or.inr ⟨[false], rfl⟩⟩

theorem witness_LdcAcceptsEveryConflictFreePair :
    Inv (ab false) ∧ (ab false).err = false ∧ (ab false).trdy = false ∧ (2 : CodeLen) ≠ 0 ∧
    (clutAt (ab false).clut 0x63).valid = false ∧
    (∀ d, (clutAt (ab false).clut d).valid = true →
      ¬ Conflict (codeBits (clutAt (ab false).clut d)) (pathBits (2 : CodeLen).toNat 3)) ∧
    (ab false).nalloc.toNat + (2 : CodeLen).toNat ≤ 512 := by
  refine ⟨inv_ab false false, rfl, rfl, by decide, rfl, ?_, by decide⟩
  intro d
  simp only [abIn, clutAt_ab]
  split_ifs <;> simp [Conflict, codeBits, pathBits, noCode]

theorem witness_LdcFaultsWhenTheArenaIsFull : let s := { ab false with nalloc := 512 }
    s.err = false ∧ s.trdy = false ∧ (2 : CodeLen) ≠ 0 ∧ (clutAt s.clut 0x63).valid = false ∧
    descend s.node 0 (pathBits (2 : CodeLen).toNat 3) = .ok (2, [true]) ∧
    512 < s.nalloc.toNat + [true].length := by decide

/-- Section 2.6: PBITS 0xFFFFFFFE, one more bit fits. -/
theorem witness_EncAppendsTheCodeOfItsCharacter :
    let s := { ab true with psym := true, pbits := 0xFFFFFFFE, acnt := 6 }
    s.err = false ∧ s.trdy = true ∧ (clutAt s.clut 0x61).valid = true ∧
    (if s.psym then s.pbits.toNat else 0) + (clutAt s.clut 0x61).len.toNat ≤ 4294967295 := by decide

theorem witness_EncFaultsOnMissingCodeOrFullCounter :
    let s := { ab true with psym := true, pbits := 0xFFFFFFFF, acnt := 7 }
    s.err = false ∧ s.trdy = true ∧ (clutAt s.clut 0x63).valid = false ∧ (clutAt s.clut 0x61).valid = true ∧
    4294967295 < (if s.psym then s.pbits.toNat else 0) + (clutAt s.clut 0x61).len.toNat := by decide

theorem witness_EflushEmitsThePaddedGroupAndClosesTheSession :
    (abOpen.err = false ∧ abOpen.trdy = true ∧ abOpen.psym = true ∧ abOpen.acnt ≠ 0) ∧
    (abWhole.err = false ∧ abWhole.trdy = true ∧ abWhole.psym = true ∧ abWhole.acnt = 0) ∧
    ((ab true).psym = false ∧ (ab true).trdy = true) ∧ (ab false).trdy = false := by decide

theorem witness_DecbitMovesOrEmitsOrFaults : let s := ab true
    s.err = false ∧ s.trdy = true ∧ (ab false).trdy = false ∧ (nodeAt s.node (nodeAt s.node 0).l).tag = .leaf ∧
    (nodeAt s.node 0).r ≠ 0 ∧ (nodeAt s.node (nodeAt s.node 0).r).tag ≠ .leaf ∧ (nodeAt s.node 2).r = 0 ∧
    (after (.decbit false) s).err = false ∧ (after (.decbit true) { s with cur := 2 }).err = true := by decide

theorem witness_DecbWalksTheLeadingBitsOrFaults : let s := ab true
    s.err = false ∧ s.trdy = true ∧ walk s.node s.cur (groupBits 8 0x55) = .ok (2, [0x61, 0x62, 0x62, 0x62]) ∧
    walk s.node s.cur (groupBits 1 0xFF) = .ok (2, []) ∧
    walk s.node s.cur (groupBits 2 0xFF) = .error .invalidPath := by decide

theorem witness_DecbEqualsItsDecbits :
    (ab true).err = false ∧ (ab true).trdy = true ∧ (after (.decb 8 0x55) (ab true)).err = false ∧
    exec (.decb 2 0xFF) (ab true) = .next (after (.decb 2 0xFF) (ab true)) ∧
    (after (.decb 2 0xFF) (ab true)).err = true := ⟨rfl, rfl, rfl, rfl, rfl⟩

theorem witness_LdcFrame :
    exec (.ldc 2 0x63 3) (ab false) = .next (after (.ldc 2 0x63 3) (ab false)) ∧
    descend (ab false).node 0 (pathBits (2 : CodeLen).toNat 3) = .ok (2, [true]) ∧
    descend (ab false).node 0 (pathBits (2 : CodeLen).toNat 1) = .error .invalidCodeTable := ⟨rfl, rfl, rfl⟩

theorem witness_PackCommandsFrame :
    exec .eflush abOpen = .next (after .eflush abOpen) ∧
    exec (.enc 0x62) abOpen = .next (after (.enc 0x62) abOpen) := ⟨rfl, rfl⟩

theorem witness_DecodeCommandsFrame :
    exec .trst (ab true) = .next (after .trst (ab true)) ∧
    exec (.decbit true) (ab true) = .next (after (.decbit true) (ab true)) ∧
    exec (.decb 3 0x40) (ab true) = .next (after (.decb 3 0x40) (ab true)) := ⟨rfl, rfl, rfl⟩

theorem witness_TableControlFrame :
    exec .tfin (ab false) = .next (after .tfin (ab false)) ∧
    exec .tclr abOpen = .next (after .tclr abOpen) := ⟨rfl, rfl⟩

theorem witness_PackAndDecodeCommandsCommute :
    (ab true).err = false ∧ (ab true).trdy = true ∧
    exec (.enc 0x62) (ab true) = .next (after (.enc 0x62) (ab true)) ∧ (after (.enc 0x62) (ab true)).err = false ∧
    exec (.decb 3 0x40) (ab true) = .next (after (.decb 3 0x40) (ab true)) ∧
    (after (.decb 3 0x40) (ab true)).err = false := ⟨rfl, rfl, rfl, rfl, rfl, rfl⟩

theorem witness_OnlyTheNamedCommandsSetAndClearFlags :
    (exec .reset abFaulted = .next (after .reset abFaulted) ∧ abFaulted.err = true ∧
      (after .reset abFaulted).err = false) ∧
    ((ab false).trdy = false ∧ (after .tfin (ab false)).trdy = true) ∧
    (abOpen.trdy = true ∧ (after .tclr abOpen).trdy = false) ∧
    ((ab true).psym = false ∧ (after (.enc 0x61) (ab true)).psym = true) ∧
    (abOpen.psym = true ∧ (after .eflush abOpen).psym = false) :=
  ⟨⟨rfl, rfl, rfl⟩, ⟨rfl, rfl⟩, ⟨rfl, rfl⟩, ⟨rfl, rfl⟩, ⟨rfl, rfl⟩⟩

theorem witness_OnlyTheNamedCommandsWriteEachRegister :
    (after (.enc 0x62) (ab true)).acnt ≠ (ab true).acnt ∧ (after (.enc 0x62) (ab true)).pbits ≠ (ab true).pbits ∧
    (after (.decbit true) (ab true)).cur ≠ (ab true).cur ∧
    (after (.ldc 2 0x63 3) (ab false)).nalloc ≠ (ab false).nalloc ∧
    (after .tfin (ab true)).ecmd ≠ (ab true).ecmd ∧
    (after .reset abFaulted).cause ≠ abFaulted.cause := by decide

theorem witness_OutputStreamsAreAppendOnly :
    Instr.enc 0x62 ≠ .reset ∧ exec (.enc 0x62) abOpen = .next (after (.enc 0x62) abOpen) ∧
    (after (.enc 0x62) abOpen).outb = [0x55] := ⟨by decide, rfl, rfl⟩

theorem witness_TableIsReadOnlyWhenReady :
    (ab true).trdy = true ∧ Instr.ldc 2 0x63 3 ≠ .tclr ∧ Instr.ldc 2 0x63 3 ≠ .reset ∧
    exec (.ldc 2 0x63 3) (ab true) = .next (after (.ldc 2 0x63 3) (ab true)) :=
  ⟨rfl, by decide, by decide, rfl⟩

/-- One state and step for the six statements that a step keeps an invariant: LDC 'c',"11" on {a:"0", b:"10"}. -/
theorem witness_StepKeepsInvariants :
    Memory.wf ((ab false).withFetchWord 32 0x32630003) ∧ EntryInv (ab false) ∧ PackerInv (ab false) ∧
    FaultInv (ab false) ∧ TreeInv (ab false) ∧ CodeInv (ab false) ∧
    step ((ab false).withFetchWord 32 0x32630003) = .next (after (.ldc 2 0x63 3) (ab false)) :=
  ⟨(inv_ab false false).memory, entryInv_ab false false, packerInv_ab false false, faultInv_ab false false, treeInv_ab false false,
    codeInv_ab false false, rfl⟩

theorem witness_ReachableStatesSatisfyTheInvariants :
    (Inv ((ab false).withFetchWord 32 0x32630003) ∧
      step ((ab false).withFetchWord 32 0x32630003) = .next (after (.ldc 2 0x63 3) (ab false))) ∧
    Reachable (after (.ldc 1 0x61 0) State.reset) :=
  ⟨⟨inv_withInput (inv_ab false false) [.command 0x32630003], rfl⟩, 1, [.command 0x31610000], rfl⟩

theorem witness_SessionPacksTheConcatenatedCodes : let s := ab true
    s.err = false ∧ s.trdy = true ∧ s.psym = false ∧ s.acnt = 0 ∧ ([0x61, 0x62] : List Ch) ≠ [] ∧
    (∀ c ∈ ([0x61, 0x62] : List Ch), (clutAt s.clut c).valid = true) ∧
    (messageBits s [0x61, 0x62]).length ≤ 4294967295 := by decide

theorem witness_RoundTripGivesTheMessageBack : let s := ab true
    Inv s ∧ s.err = false ∧ s.trdy = true ∧ s.psym = false ∧ s.cur = 0 ∧ ([0x61, 0x62] : List Ch) ≠ [] ∧
    (∀ c ∈ ([0x61, 0x62] : List Ch), (clutAt s.clut c).valid = true) ∧
    (messageBits s [0x61, 0x62]).length ≤ 4294967295 :=
  ⟨inv_ab false true, rfl, rfl, rfl, rfl, by decide, by decide, by decide⟩

/-- A cleared state (R191) whose output records are not empty. -/
def abCleared : State := { State.reset with outb := [0x40], outc := [0x61, 0x62] }

/-- LDTAB {a:"0", b:"1"} of program P1: words 1 to 4. -/
def p1Load : List Instr := [.tclr, .ldc 1 0x61 0, .ldc 1 0x62 1, .tfin]

/-- The state the load ends in, from `s`, which has no bit held; the pairs in either order. -/
def p1Ready (swapped : Bool) (s : State) : State :=
  { s with
    node := if swapped then [(0, ⟨.internal, 0, 2, 1⟩), (1, ⟨.leaf, 0x62, 0, 0⟩), (2, ⟨.leaf, 0x61, 0, 0⟩)]
      else [(0, ⟨.internal, 0, 1, 2⟩), (1, ⟨.leaf, 0x61, 0, 0⟩), (2, ⟨.leaf, 0x62, 0, 0⟩)]
    nalloc := 3, clut := [(0x61, ⟨true, 1, 0⟩), (0x62, ⟨true, 1, 1⟩)], trdy := true }

theorem cleared_abCleared : Cleared abCleared := by unfold Cleared; decide

theorem faultInv_abCleared : FaultInv abCleared := by
  constructor <;> simp [abCleared, State.reset]

/-- From the cleared state, and from READY with another table loaded: LDTAB begins with TCLR. -/
theorem witness_LoadedTableIsTheGivenTable :
    ldtab [(0x61, [false]), (0x62, [true])] = some p1Load ∧
    (FaultInv abCleared ∧ abCleared.err = false ∧
      execAll p1Load abCleared = .next (p1Ready false abCleared) ∧ (p1Ready false abCleared).err = false) ∧
    (FaultInv (ab true) ∧ (ab true).err = false ∧
      execAll p1Load (ab true) = .next (p1Ready false (ab true)) ∧ (p1Ready false (ab true)).err = false) :=
  ⟨rfl, ⟨faultInv_abCleared, rfl, rfl, rfl⟩, faultInv_ab false true, rfl, rfl, rfl⟩

/-- The two load orders of {a:"0", b:"10"}: other node indices, one code table; a walk that ends on a code boundary,
one that ends inside a code, and one that fails. -/
theorem witness_DecodingDependsOnTheCodeTableAlone :
    Inv (abIn false true) ∧ Inv (abIn true true) ∧ (abIn false true).node ≠ (abIn true true).node ∧
    (∀ c, clutAt (abIn false true).clut c = clutAt (abIn true true).clut c) ∧
    walk (abIn false true).node 0 [true, false] = .ok (0, [0x62]) ∧
    walk (abIn false true).node 0 [false, true] = .ok (2, [0x61]) ∧
    walk (abIn true true).node 0 [false, true] = .ok (1, [0x61]) ∧
    walk (abIn false true).node 0 [true, true] = .error .invalidPath :=
  ⟨inv_ab false true, inv_ab true true, by decide, fun _ => rfl, rfl, rfl, rfl, rfl⟩

theorem witness_IssuingEncodedCommandsExecutesThem :
    ∀ i ∈ ([.tclr, .ldc 3 0x6D 4, .decb 8 0x99] : List Instr), i.WellFormed := by decide

theorem witness_HostCodesArePrefixFreeAndCoverTheMessage :
    ([0x61, 0x61, 0x62] : List Ch) ≠ [] ∧
    [((0x62 : Ch), 1), (0x61, 2)].Perm (frequencies [0x61, 0x61, 0x62]) := by decide

/-- The message "ab" of program P1: a table of it is P1's; loaded 'a' first and, for the decode, 'b' first. -/
theorem witness_HostEncodeThenDecodeGivesTheMessageBack :
    FaultInv abCleared ∧ abCleared.err = false ∧ ([0x61, 0x62] : List Ch) ≠ [] ∧
    [((0x61 : Ch), 1), (0x62, 1)].Perm (frequencies [0x61, 0x62]) ∧
    codeTable (fun _ => 0) [(0x61, 1), (0x62, 1)] = some [(0x61, [false]), (0x62, [true])] ∧
    ldtab [(0x61, [false]), (0x62, [true])] = some p1Load ∧
    execAll p1Load abCleared = .next (p1Ready false abCleared) ∧ (p1Ready false abCleared).err = false ∧
    (messageBits (p1Ready false abCleared) [0x61, 0x62]).length ≤ 4294967295 ∧
    [((0x62 : Ch), [true]), (0x61, [false])].Perm [(0x61, [false]), (0x62, [true])] ∧
    ldtab [(0x62, [true]), (0x61, [false])] = some [.tclr, .ldc 1 0x62 1, .ldc 1 0x61 0, .tfin] ∧
    execAll [.tclr, .ldc 1 0x62 1, .ldc 1 0x61 0, .tfin] (ab true) = .next (p1Ready true (ab true)) ∧
    (FaultInv (ab true) ∧ (ab true).err = false ∧ (p1Ready true (ab true)).err = false) :=
  ⟨faultInv_abCleared, rfl, by decide, by decide, by decide, rfl, rfl, rfl, by decide, by decide, rfl, rfl,
    faultInv_ab false true, rfl, rfl⟩

/-- The message "aab", its frequencies and the LDCs of its table in the orders the model does not list them. -/
theorem witness_HostTableLoadsWithoutAFault :
    (ab true).err = false ∧ ([0x61, 0x61, 0x62] : List Ch) ≠ [] ∧
    [((0x62 : Ch), 1), (0x61, 2)].Perm (frequencies [0x61, 0x61, 0x62]) ∧
    codeTable (fun _ => 0) [(0x62, 1), (0x61, 2)] = some [(0x62, [false]), (0x61, [true])] ∧
    [((0x61 : Ch), [true]), (0x62, [false])].Perm [(0x62, [false]), (0x61, [true])] ∧
    (∀ e ∈ [((0x62 : Ch), [false]), (0x61, [true])], e.2.length ≤ 15) := by decide

/-- R128's bound: 9 real bits in two groups; 8 or 17 are refused. -/
theorem test_decodeStream_bounds :
    decodeStream [0x99, 0xB8] 9 = some [.decb 8 0x99, .decb 1 0xB8] ∧
    decodeStream [0x99, 0xB8] 8 = none ∧ decodeStream [0x99, 0xB8] 17 = none ∧ decodeStream [] 0 = none := by
  decide

end Sys2Proof.Tests
end

section
/-! SUPPORT. The host's table as a load sees it: the characters of a tree, the positions its codes pass through, and
that both are few enough for the block (spec rules R9, R122 to R125, R127). -/

namespace Sys2Proof.Machine

/-! A table that fits the block -/

/-- A table that LDTAB can load: every code has 1 to 15 bits, no character has two codes, no two codes conflict
(R91), and the positions the codes pass through, the root among them, are at most the records of the arena. -/
structure Fits (table : List (Ch × List Bool)) : Prop where
  lengths : ∀ e ∈ table, 1 ≤ e.2.length ∧ e.2.length ≤ 15
  apart : table.Pairwise fun e f => e.1 ≠ f.1 ∧ ¬ Conflict e.2 f.2
  room : ∃ positions : List (List Bool), positions.length ≤ 512 ∧ ∀ e ∈ table, ∀ p, p <+: e.2 → p ∈ positions

theorem conflict_comm {p q : List Bool} : Conflict p q ↔ Conflict q p := Or.comm

@[simp] theorem conflict_cons_cons (a b : Bool) (p q : List Bool) :
    Conflict (a :: p) (b :: q) ↔ a = b ∧ Conflict p q := by
  simp only [Conflict, List.cons_prefix_cons, eq_comm (a := b), ← and_or_left]

/-- The order of the pairs is no part of `Fits`. -/
theorem Fits.perm {table order : List (Ch × List Bool)} (h : Fits table) (hp : order.Perm table) : Fits order where
  lengths e he := h.lengths e (hp.mem_iff.mp he)
  apart := (hp.pairwise_iff fun hef => ⟨hef.1.symm, fun hc => hef.2 (conflict_comm.mp hc)⟩).mpr h.apart
  room := by
    obtain ⟨positions, hlen, hmem⟩ := h.room
    exact ⟨positions, hlen, fun e he => hmem e (hp.mem_iff.mp he)⟩

/-! The host's tree (R122 to R125) -/

/-- The characters at the leaves of a tree, from left to right. -/
def HostTree.chars (t : HostTree) : List Ch := t.paths.map Prod.fst

@[simp] theorem chars_leaf (c : Ch) (w : Nat) : (HostTree.leaf c w).chars = [c] := rfl

@[simp] theorem chars_node (w : Nat) (l r : HostTree) : (HostTree.node w l r).chars = l.chars ++ r.chars := by
  simp [HostTree.chars, HostTree.paths, Function.comp_def]

theorem codes_map_fst (t : HostTree) : t.codes.map Prod.fst = t.chars := by cases t <;> rfl

/-- The path to every node of a tree, its root and its leaves among them. -/
def HostTree.positions : HostTree → List (List Bool)
  | .leaf _ _ => [[]]
  | .node _ l r => [] :: (l.positions.map (false :: ·) ++ r.positions.map (true :: ·))

/-- A binary tree has one node less than twice its leaves. -/
theorem positions_length (t : HostTree) : t.positions.length + 1 = 2 * t.chars.length := by
  induction t with
  | leaf c w => rfl
  | node w l r ihl ihr => simp [HostTree.positions]; omega

theorem prefix_mem_positions (t : HostTree) :
    ∀ e ∈ t.paths, ∀ p, p <+: e.2 → p ∈ t.positions := by
  induction t with
  | leaf c w => simp [HostTree.paths, HostTree.positions]
  | node w l r ihl ihr =>
    rintro e he (_ | ⟨b, p⟩) hp
    · simp [HostTree.positions]
    · simp only [HostTree.paths, List.mem_append, List.mem_map] at he
      rcases he with ⟨f, hf, rfl⟩ | ⟨f, hf, rfl⟩ 
      · obtain ⟨rfl, hpf⟩ := List.cons_prefix_cons.mp hp
        simpa [HostTree.positions] using ihl f hf p hpf
      · obtain ⟨rfl, hpf⟩ := List.cons_prefix_cons.mp hp
        simpa [HostTree.positions] using ihr f hf p hpf

/-- The paths to two leaves part at a branch point (R124). -/
theorem paths_pairwise_not_conflict (t : HostTree) : t.paths.Pairwise fun e f => ¬ Conflict e.2 f.2 := by
  induction t with
  | leaf c w => simp [HostTree.paths]
  | node w l r ihl ihr =>
    simp only [HostTree.paths, List.pairwise_append, List.pairwise_map]
    refine ⟨?_, ?_, ?_⟩
    · simpa using ihl
    · simpa using ihr
    · simp only [List.mem_map]
      rintro _ ⟨e, -, rfl⟩ _ ⟨f, -, rfl⟩
      simp

theorem codes_pairwise_not_conflict (t : HostTree) : t.codes.Pairwise fun e f => ¬ Conflict e.2 f.2 := by
  cases t with
  | leaf c w => simp [HostTree.codes]
  | node w l r => exact paths_pairwise_not_conflict _

/-- Below a branch point every path has a bit, and a lone leaf gets the code "0" (R125). -/
theorem codes_length_pos (t : HostTree) : ∀ e ∈ t.codes, 1 ≤ e.2.length := by
  cases t with
  | leaf c w => simp [HostTree.codes]
  | node w l r =>
    intro e he
    simp only [HostTree.codes, HostTree.paths, List.mem_append, List.mem_map] at he
    rcases he with ⟨f, -, rfl⟩ | ⟨f, -, rfl⟩ <;> simp

theorem codes_ne_nil (t : HostTree) : t.codes ≠ [] := by
  intro h
  have hlen := positions_length t
  rw [← codes_map_fst, h] at hlen
  simp at hlen

/-- There are 256 characters (R8). -/
theorem length_le_256_of_nodup {cs : List Ch} (h : cs.Nodup) : cs.length ≤ 256 := by
  have hsub : cs.map BitVec.toNat ⊆ List.range 256 := by
    simp only [List.subset_def, List.mem_map, List.mem_range]
    rintro _ ⟨c, -, rfl⟩
    exact c.isLt
  simpa using ((h.map fun _ _ => BitVec.eq_of_toNat_eq).subperm hsub).length_le

/-- The codes of a tree pass through at most 511 positions when its characters are distinct (R9). -/
theorem codes_room (t : HostTree) (h : t.chars.Nodup) :
    ∃ positions : List (List Bool), positions.length ≤ 512 ∧ ∀ e ∈ t.codes, ∀ p, p <+: e.2 → p ∈ positions := by
  cases t with
  | leaf c w => exact ⟨[[], [false]], by simp, by simp [HostTree.codes, List.prefix_cons_iff]⟩
  | node w l r =>
    refine ⟨_, ?_, prefix_mem_positions (.node w l r)⟩
    have hpos := positions_length (.node w l r)
    have hle := length_le_256_of_nodup h
    omega

theorem fits_codes {t : HostTree} (hn : t.chars.Nodup) (hl : ∀ e ∈ t.codes, e.2.length ≤ 15) : Fits t.codes where
  lengths e he := ⟨codes_length_pos t e he, hl e he⟩
  apart := by
    rw [← codes_map_fst, List.Nodup, List.pairwise_map] at hn
    exact hn.and (codes_pairwise_not_conflict t)
  room := codes_room t hn

/-! The characters of a tree are those of its frequencies (R121, R122) -/

/-- Counting an occurrence keeps the keys, or adds the character as the last one. -/
theorem addOccurrence_map_fst (c : Ch) (freq : List (Ch × Nat)) : (addOccurrence c freq).map Prod.fst =
    if c ∈ freq.map Prod.fst then freq.map Prod.fst else freq.map Prod.fst ++ [c] := by
  induction freq with
  | nil => rfl
  | cons e freq ih =>
    obtain ⟨d, n⟩ := e
    by_cases hcd : c = d
    · simp [addOccurrence, hcd]
    · by_cases hc : c ∈ freq.map Prod.fst <;> simp_all [addOccurrence]

theorem addOccurrence_keys_nodup (c : Ch) {freq : List (Ch × Nat)} (h : (freq.map Prod.fst).Nodup) :
    ((addOccurrence c freq).map Prod.fst).Nodup := by
  rw [addOccurrence_map_fst]
  split
  · exact h
  · next hc => simpa using h.concat hc

theorem frequencies_keys_nodup (message : List Ch) : ((frequencies message).map Prod.fst).Nodup := by
  unfold frequencies
  exact List.foldlRecOn (motive := fun freq : List (Ch × Nat) => (freq.map Prod.fst).Nodup) message _ List.nodup_nil
    fun _ h c _ => addOccurrence_keys_nodup c h

/-- An extraction takes one tree out of the queue and keeps the others (R122). -/
theorem extractLeast_perm {tiebreak : List HostTree → Nat} {q q' : List HostTree} {t : HostTree}
    (h : extractLeast tiebreak q = some (t, q')) : (t :: q').Perm q := by
  simp only [extractLeast] at h
  split at h
  · next i _ =>
    obtain ⟨u, hu, huq⟩ := Option.map_eq_some_iff.mp h
    obtain ⟨rfl, rfl⟩ := Prod.mk.inj huq
    obtain ⟨hi, rfl⟩ := List.getElem?_eq_some_iff.mp hu
    exact List.getElem_cons_eraseIdx_perm hi
  · cases h

/-- Merging keeps the characters (R122). -/
theorem mergeTrees_chars {tiebreak : List HostTree → Nat} {n : Nat} {q : List HostTree} {t : HostTree}
    (h : mergeTrees tiebreak n q = some t) : t.chars.Perm (q.flatMap HostTree.chars) := by
  fun_induction mergeTrees tiebreak n q with
  | case1 => cases h
  | case2 n u => cases h; simp
  | case3 => cases h
  | case4 => cases h
  | case5 => cases h
  | case6 n q _ _ a q' ha b q'' hb ih =>
    have hq : (a :: b :: q'').Perm q := ((extractLeast_perm hb).cons a).trans (extractLeast_perm ha)
    calc List.Perm t.chars (q''.flatMap HostTree.chars ++ (a.chars ++ b.chars)) := by simpa using ih h
      List.Perm _ ((a :: b :: q'').flatMap HostTree.chars) := by
        rw [List.flatMap_cons, List.flatMap_cons]
        simpa only [List.append_assoc] using
          List.perm_append_comm (l₁ := q''.flatMap HostTree.chars) (l₂ := a.chars ++ b.chars)
      List.Perm _ (q.flatMap HostTree.chars) := hq.flatMap_right _

theorem buildTree_chars {tiebreak : List HostTree → Nat} {freq : List (Ch × Nat)} {t : HostTree}
    (h : buildTree tiebreak freq = some t) : t.chars.Perm (freq.map Prod.fst) := by
  simpa [List.flatMap_map, ← List.map_eq_flatMap] using mergeTrees_chars h

end Sys2Proof.Machine
end

section
/-! SUPPORT. Loading a table that fits: the arena as the list of the positions its records stand at, how LDC walks and
grows it, and LDTAB as a whole (spec rules R68, R81, R82, R91, R92). -/

namespace Sys2Proof.Machine

/-! The bit-string of an LDC (R63, R67) -/

/-- Reading further bits leaves the value read so far above them. -/
theorem foldl_bits_div (bs : List Bool) (v : Nat) :
    bs.foldl (fun v b => 2 * v + b.toNat) v / 2 ^ bs.length = v := by
  induction bs generalizing v with
  | nil => simp
  | cons b bs ih =>
    rw [List.foldl_cons, List.length_cons, pow_succ, ← Nat.div_div_eq_div_mul, ih]
    cases b <;> simp; omega

/-- The path bits of a value are the bits it was read from, whatever stands above them. -/
theorem pathBits_foldl (bs : List Bool) (v : Nat) (h : bs.length ≤ 15) :
    pathBits bs.length (BitVec.ofNat 15 (bs.foldl (fun v b => 2 * v + b.toNat) v)) = bs := by
  induction bs generalizing v with
  | nil => rfl
  | cons b bs ih =>
    have hlen : bs.length < 15 := by simpa using h
    rw [List.length_cons, List.foldl_cons, pathBits, ih _ (Nat.le_of_lt hlen), BitVec.getLsbD_ofNat,
      Nat.testBit_eq_decide_div_mod_eq, foldl_bits_div]
    cases b <;> simp [hlen]

/-- A bit-string of at most 15 bits is what its LDC's operands spell. -/
theorem assembleLdc_eq {c : Ch} {bs : List Bool} (h : bs.length ≤ 15) :
    ∃ len code, assembleLdc c bs = some (.ldc len c code) ∧ len.toNat = bs.length ∧
      pathBits len.toNat code = bs := by
  have hlen : (BitVec.ofNat 4 bs.length).toNat = bs.length := by
    rw [BitVec.toNat_ofNat]
    omega
  exact ⟨_, _, if_pos h, hlen, by rw [hlen]; exact pathBits_foldl bs 0 h⟩

/-! The arena (R17, R18, R92) -/

/-- The records in use, as the list `pos` of the positions they stand at: record `i` is reached from the root by the
path `pos[i]`, and every leaf stands at one of `codes`. -/
structure Arena (s : State) (pos codes : List (List Bool)) : Prop where
  count : s.nalloc.toNat = pos.length
  nodup : pos.Nodup
  root : pos[0]? = some []
  closed : ∀ p b, p ++ [b] ∈ pos → p ∈ pos
  linked : ∀ (i : NodeIdx) p b, pos[i.toNat]? = some p → (nodeAt s.node i).child b ≠ 0 →
    pos[((nodeAt s.node i).child b).toNat]? = some (p ++ [b])
  unlinked : ∀ (i : NodeIdx) p b, pos[i.toNat]? = some p → (nodeAt s.node i).child b = 0 → p ++ [b] ∉ pos
  leaf : ∀ (i : NodeIdx) p, pos[i.toNat]? = some p → (nodeAt s.node i).tag = .leaf → p ∈ codes
  rootBare : (nodeAt s.node 0).tag = .empty → pos = [[]]

/-- The arena after TCLR holds the root alone (R81). -/
theorem arena_clearTable (s : State) : Arena (clearTable s) [[]] [] where
  count := rfl
  nodup := List.nodup_singleton _
  root := rfl
  closed := by simp
  linked _ _ b _ h := absurd (by cases b <;> rfl) h
  unlinked := by simp
  leaf _ _ _ h := by simp [emptyNode] at h
  rootBare _ := rfl

/-- An arena reads NODE and NALLOC only, and more codes may be allowed for its leaves. -/
theorem Arena.congr {s t : State} {pos codes codes' : List (List Bool)} (h : Arena s pos codes)
    (hnode : t.node = s.node) (hnalloc : t.nalloc = s.nalloc) (hcodes : codes ⊆ codes') : Arena t pos codes' where
  count := by rw [hnalloc, h.count]
  nodup := h.nodup
  root := h.root
  closed := h.closed
  linked := by rw [hnode]; exact h.linked
  unlinked := by rw [hnode]; exact h.unlinked
  leaf i p hi hl := by rw [hnode] at hl; exact hcodes (h.leaf i p hi hl)
  rootBare := by rw [hnode]; exact h.rootBare

@[simp] theorem child_withChild (n : Node) (b d : Bool) (j : NodeIdx) :
    (n.withChild b j).child d = if d = b then j else n.child d := by
  cases b <;> cases d <;> rfl

theorem child_of_no_links (tag : NodeTag) (ch : Ch) (b : Bool) : (Node.mk tag ch 0 0).child b = 0 := by
  cases b <;> rfl

@[simp] theorem tag_withChild (n : Node) (b : Bool) (j : NodeIdx) : (n.withChild b j).tag = .internal := by
  cases b <;> rfl

/-- Every record after one round of LDC's phase 2. -/
theorem nodeAt_addChild (cur i : NodeIdx) (b : Bool) (n : Node) (s : State) : nodeAt (addChild cur b n s).node i =
    if i = newIndex s then n
    else if i = cur then (nodeAt s.node cur).withChild b (newIndex s) else nodeAt s.node i := by
  simp [eq_comm (a := i)]

/-- One more position below `p` leaves the parent of every position where it was: among the old ones. -/
theorem parent_mem_of_snoc {pos : List (List Bool)} {p q : List Bool} {b d : Bool}
    (hclosed : ∀ q d, q ++ [d] ∈ pos → q ∈ pos) (hp : p ∈ pos) (hq : q ++ [d] ∈ pos ++ [p ++ [b]]) : q ∈ pos := by
  rcases List.mem_append.mp hq with hq | hq
  · exact hclosed q d hq
  · obtain ⟨rfl, -⟩ := List.append_inj' (List.mem_singleton.mp hq) rfl
    exact hp

section
variable {s : State} {pos codes : List (List Bool)} {cur : NodeIdx} {p : List Bool}

/-- The next record is the one after those in use, as long as there is one (R18). -/
theorem Arena.newIndex_toNat (h : Arena s pos codes) (hroom : pos.length < 512) :
    (newIndex s).toNat = pos.length := by
  rw [newIndex, BitVec.toNat_setWidth, h.count, Nat.mod_eq_of_lt hroom]

/-- Positions differ, so a record's position tells which record it is. -/
theorem Arena.index_unique (h : Arena s pos codes) {i j : NodeIdx} (hi : pos[i.toNat]? = some p)
    (hj : pos[j.toNat]? = some p) : i = j := by
  obtain ⟨hlt, -⟩ := List.getElem?_eq_some_iff.mp hi
  exact BitVec.eq_of_toNat_eq ((List.getElem?_inj hlt h.nodup).mp (hi.trans hj.symm))

/-- Looking up a position in the list with one more at its end. -/
theorem getElem?_snoc {i : Nat} {q r : List Bool} (hi : (pos ++ [r])[i]? = some q) :
    i = pos.length ∧ q = r ∨ i < pos.length ∧ pos[i]? = some q := by
  rcases Nat.lt_trichotomy i pos.length with hlt | heq | hgt
  · exact Or.inr ⟨hlt, by rwa [List.getElem?_append_left hlt] at hi⟩
  · subst heq
    exact Or.inl ⟨rfl, by simpa using hi.symm⟩
  · rw [List.getElem?_eq_none (by simpa using hgt)] at hi
    cases hi

/-- The records in use after one round of LDC's phase 2: the new one, the one that got it as a child, the others. -/
theorem Arena.addChild_record (h : Arena s pos codes) (hcur : pos[cur.toNat]? = some p) {b : Bool}
    (hroom : pos.length < 512) (n : Node) {i : NodeIdx} {q : List Bool}
    (hi : (pos ++ [p ++ [b]])[i.toNat]? = some q) :
    q = p ++ [b] ∧ nodeAt (addChild cur b n s).node i = n ∨
    (i = cur ∧ q = p) ∧
      nodeAt (addChild cur b n s).node i = (nodeAt s.node cur).withChild b (newIndex s) ∨
    (i ≠ cur ∧ pos[i.toNat]? = some q) ∧ nodeAt (addChild cur b n s).node i = nodeAt s.node i := by
  have hnew := h.newIndex_toNat hroom
  rw [nodeAt_addChild]
  rcases getElem?_snoc hi with ⟨hlen, rfl⟩ | ⟨hlt, hq⟩
  · exact Or.inl ⟨rfl, if_pos (BitVec.eq_of_toNat_eq (hlen.trans hnew.symm))⟩
  · have hne : i ≠ newIndex s := by
      rintro rfl
      omega
    rw [if_neg hne]
    by_cases hic : i = cur
    · subst hic
      exact Or.inr (Or.inl ⟨⟨rfl, Option.some.inj (hq.symm.trans hcur)⟩, if_pos rfl⟩)
    · exact Or.inr (Or.inr ⟨⟨hic, hq⟩, if_neg hic⟩)

/-- One round of LDC's phase 2 puts one record at a position that had none. -/
theorem arena_addChild (h : Arena s pos codes) (hcur : pos[cur.toNat]? = some p) {b : Bool}
    (hfree : p ++ [b] ∉ pos) (hroom : pos.length < 512) {tag : NodeTag} (ch : Ch)
    (hleaf : tag = .leaf → p ++ [b] ∈ codes) :
    Arena (addChild cur b ⟨tag, ch, 0, 0⟩ s) (pos ++ [p ++ [b]]) codes := by
  have hnew := h.newIndex_toNat hroom
  have hparent : ∀ {q d}, q ++ [d] ∈ pos ++ [p ++ [b]] → q ∈ pos :=
    parent_mem_of_snoc h.closed (List.mem_of_getElem? hcur)
  have hkeep : ∀ {i : Nat} {q}, pos[i]? = some q → (pos ++ [p ++ [b]])[i]? = some q := fun hi => by
    rw [List.getElem?_append_left (List.getElem?_eq_some_iff.mp hi).1, hi]
  have hcurlt : cur.toNat < pos.length := (List.getElem?_eq_some_iff.mp hcur).1
  have hnz : newIndex s ≠ 0 := fun hz => by
    rw [hz] at hnew
    simp at hnew
    omega
  refine
    { count := ?_, nodup := by simpa using h.nodup.concat hfree, root := hkeep h.root
      closed := fun q d hq => List.mem_append_left _ (hparent hq)
      linked := ?_, unlinked := ?_, leaf := ?_, rootBare := ?_ }
  · have hcount := h.count
    rw [addChild_nalloc, List.length_append, List.length_singleton]
    bv_omega
  · intro i q d hi hc
    rcases h.addChild_record hcur hroom ⟨tag, ch, 0, 0⟩ hi with ⟨-, hn⟩ | ⟨⟨rfl, rfl⟩, hn⟩ | ⟨⟨-, hq⟩, hn⟩ <;> rw [hn] at hc ⊢
    · exact absurd (child_of_no_links tag ch d) hc
    · rw [child_withChild] at hc ⊢
      split at hc
      · next hd => simp [hd, hnew]
      · next hd => rw [if_neg hd]; exact hkeep (h.linked i q d hcur hc)
    · exact hkeep (h.linked i q d hq hc)
  · intro i q d hi hc hmem
    rcases h.addChild_record hcur hroom ⟨tag, ch, 0, 0⟩ hi with ⟨rfl, -⟩ | ⟨⟨rfl, rfl⟩, hn⟩ | ⟨⟨hic, hq⟩, hn⟩
    · exact hfree (hparent hmem)
    · rw [hn, child_withChild] at hc
      split at hc
      · exact hnz hc
      · next hd => simp [hd, h.unlinked i q d hcur hc] at hmem
    · rw [hn] at hc
      have hqp : q ≠ p := fun he => hic (h.index_unique hq (he ▸ hcur))
      simp [hqp, h.unlinked i q d hq hc] at hmem
  · intro i q hi hl
    rcases h.addChild_record hcur hroom ⟨tag, ch, 0, 0⟩ hi with ⟨rfl, hn⟩ | ⟨-, hn⟩ | ⟨⟨-, hq⟩, hn⟩ <;> rw [hn] at hl
    · exact hleaf hl
    · simp at hl
    · exact h.leaf i q hq hl
  · intro he
    rw [nodeAt_addChild, if_neg hnz.symm] at he
    by_cases hic : 0 = cur
    · simp [← hic] at he
    · rw [if_neg hic] at he
      rw [h.rootBare he, List.length_singleton] at hcurlt
      exact absurd (BitVec.eq_of_toNat_eq (by simp; omega)) hic

/-! LDC (R91, R92) -/

/-- The positions of the records LDC makes below `p` for the path bits left. -/
def newPositions (p : List Bool) : List Bool → List (List Bool)
  | [] => []
  | b :: bs => (p ++ [b]) :: newPositions (p ++ [b]) bs

@[simp] theorem newPositions_length (p bs : List Bool) : (newPositions p bs).length = bs.length := by
  induction bs generalizing p with
  | nil => rfl
  | cons b bs ih => simp [newPositions, ih]

theorem prefix_of_mem_newPositions {p bs q : List Bool} (h : q ∈ newPositions p bs) : q <+: p ++ bs := by
  induction bs generalizing p with
  | nil => cases h
  | cons b bs ih =>
    rw [List.append_cons]
    rcases List.mem_cons.mp h with rfl | h
    · exact List.prefix_append _ _
    · exact ih h

/-- Where the path leaves the tree, no position is made twice. -/
theorem nodup_append_newPositions {pos : List (List Bool)} {p : List Bool} {b : Bool} {bs : List Bool}
    (hn : pos.Nodup) (hclosed : ∀ q d, q ++ [d] ∈ pos → q ∈ pos) (hp : p ∈ pos) (hfree : p ++ [b] ∉ pos) :
    (pos ++ newPositions p (b :: bs)).Nodup := by
  have hsnoc : (pos ++ [p ++ [b]]).Nodup := by simpa using hn.concat hfree
  induction bs generalizing b p pos with
  | nil => exact hsnoc
  | cons b' bs ih =>
    have hparent : ∀ q d, q ++ [d] ∈ pos ++ [p ++ [b]] → q ∈ pos := fun _ _ => parent_mem_of_snoc hclosed hp
    have hnext : p ++ [b] ++ [b'] ∉ pos ++ [p ++ [b]] := fun hm => hfree (hparent _ _ hm)
    have hrest := ih hsnoc (fun q d hq => List.mem_append_left _ (hparent q d hq)) (p := p ++ [b]) (by simp) hnext
      (by simpa using hsnoc.concat hnext)
    rwa [List.append_assoc] at hrest

/-- LDC's phase 2 puts a record at every position of the rest of the path (R92). -/
theorem arena_growPath (h : Arena s pos codes) (hcur : pos[cur.toNat]? = some p) {b : Bool} {bs : List Bool}
    (hfree : p ++ [b] ∉ pos) (hroom : pos.length + (b :: bs).length ≤ 512) (hcode : p ++ b :: bs ∈ codes) (ch : Ch) :
    Arena (growPath ch cur (b :: bs) s) (pos ++ newPositions p (b :: bs)) codes := by
  induction bs generalizing b cur s p pos with
  | nil =>
    exact arena_addChild h hcur hfree hroom ch fun _ => hcode
  | cons b' bs ih =>
    simp only [List.length_cons] at hroom ih
    have hlt : pos.length < 512 := by omega
    have hadd : Arena (addChild cur b ⟨.internal, 0, 0, 0⟩ s) (pos ++ [p ++ [b]]) codes :=
      arena_addChild h hcur hfree hlt 0 (by simp)
    have hnext : p ++ [b] ++ [b'] ∉ pos ++ [p ++ [b]] := fun hm => hfree (parent_mem_of_snoc h.closed (List.mem_of_getElem? hcur) hm)
    rw [List.append_cons] at hcode
    have hrest := ih hadd (cur := newIndex s) (by simp [h.newIndex_toNat hlt]) hnext (by simp; omega) hcode
    rwa [List.append_assoc] at hrest

/-- LDC's phase 1 stops at the record where the path leaves the tree, when no leaf stands on the path and no record
at its end (R91, R92). -/
theorem Arena.descend_stops (h : Arena s pos codes) (hcur : pos[cur.toNat]? = some p) {bs : List Bool}
    (hleaf : ∀ q ∈ codes, ¬ q <+: p ++ bs) (hend : p ++ bs ∉ pos) :
    ∃ stop q b rest, descend s.node cur bs = .ok (stop, b :: rest) ∧ pos[stop.toNat]? = some q ∧
      q ++ b :: rest = p ++ bs ∧ q ++ [b] ∉ pos := by
  induction bs generalizing cur p with
  | nil => exact absurd (List.mem_of_getElem? hcur) (by simpa using hend)
  | cons b bs ih =>
    have hnl : (nodeAt s.node cur).tag ≠ .leaf := fun hl =>
      hleaf p (h.leaf cur p hcur hl) (List.prefix_append _ _)
    rw [descend, if_neg hnl]
    by_cases hz : (nodeAt s.node cur).child b = 0
    · exact ⟨cur, p, b, bs, by simp [hz], hcur, rfl, h.unlinked cur p b hcur hz⟩
    · rw [List.append_cons] at hleaf hend ⊢
      dsimp only
      rw [if_neg hz]
      exact ih (h.linked cur p b hcur hz) hleaf hend

/-! Loading a table (R68) -/

/-- The pairs `done` are loaded and the table is still open, the records in use standing at `pos`: at the root and on
the paths of the codes. -/
structure Loading (s : State) (done : List (Ch × List Bool)) (pos : List (List Bool)) : Prop where
  err : s.err = false
  trdy : s.trdy = false
  entries : ∀ c, (clutAt s.clut c).valid = true → c ∈ done.map Prod.fst
  arena : Arena s pos (done.map Prod.snd)
  onPath : ∀ p ∈ pos, p = [] ∨ ∃ e ∈ done, p <+: e.2
  grown : done.length < pos.length

variable {done : List (Ch × List Bool)}

theorem loading_clearTable (herr : s.err = false) : Loading (clearTable s) [] [[]] where
  err := herr
  trdy := rfl
  entries := by simp [noCode]
  arena := arena_clearTable s
  onPath := by simp
  grown := Nat.zero_lt_one

/-- A command whose rule gives `t` in a phase that executes it ends in `t`. -/
theorem exec_of_ruleOf_ok {i : Instr} {t : State} (hd : disposition i s.phase = .executes)
    (hr : ruleOf i s = .ok t) : exec i s = .next t := by
  rw [exec_eq_runCommand]
  exact runCommand_ok hd hr

/-- No position of the tree is a code that conflicts with none of the loaded ones (R91 (a), (c)). -/
theorem Loading.not_mem_of_apart (h : Loading s done pos) {bs : List Bool} (hne : bs ≠ [])
    (hapart : ∀ e ∈ done, ¬ Conflict e.2 bs) : bs ∉ pos := by
  intro hm
  rcases h.onPath bs hm with hnil | ⟨e, he, hpre⟩
  · exact hne hnil
  · exact hapart e he (Or.inr hpre)

/-- LDC's phase 1 leaves the tree on the path of a code that conflicts with none of the loaded ones (R91, R92). -/
theorem Loading.descend_stops (h : Loading s done pos) {bs : List Bool} (hne : bs ≠ [])
    (hapart : ∀ e ∈ done, ¬ Conflict e.2 bs) :
    ∃ stop q b rest, descend s.node 0 bs = .ok (stop, b :: rest) ∧ pos[stop.toNat]? = some q ∧
      q ++ b :: rest = bs ∧ q ++ [b] ∉ pos := by
  refine h.arena.descend_stops (cur := 0) (p := []) h.arena.root ?_ (h.not_mem_of_apart hne hapart)
  intro q hq hpre
  obtain ⟨e, he, rfl⟩ := List.mem_map.mp hq
  exact hapart e he (Or.inl hpre)

/-- The records on the paths of a table that fits are at most those of the arena (R9). -/
theorem Fits.length_le {table : List (Ch × List Bool)} (h : Fits table) (hne : table ≠ []) (hn : pos.Nodup)
    (hpos : ∀ p ∈ pos, p = [] ∨ ∃ e ∈ table, p <+: e.2) : pos.length ≤ 512 := by
  obtain ⟨positions, hlen, hmem⟩ := h.room
  obtain ⟨e, he⟩ := List.exists_mem_of_ne_nil table hne
  have hsub : pos ⊆ positions := by
    intro p hp
    rcases hpos p hp with rfl | ⟨f, hf, hpre⟩
    · exact hmem e he [] List.nil_prefix
    · exact hmem f hf p hpre
  exact (hn.subperm hsub).length_le.trans hlen

/-- A command that LOADING executes and whose rule gives `t` ends in `t`. -/
theorem Loading.exec_eq (h : Loading s done pos) {i : Instr} {t : State} (hd : disposition i .loading = .executes)
    (hr : ruleOf i s = .ok t) : exec i s = .next t :=
  exec_of_ruleOf_ok (by rw [(phase_loading s).mpr ⟨h.err, h.trdy⟩, hd]) hr

/-- A character that no loaded pair has is not in the CLUT. -/
theorem Loading.valid_eq_false (h : Loading s done pos) {c : Ch} (hc : c ∉ done.map Prod.fst) :
    (clutAt s.clut c).valid = false :=
  Bool.eq_false_iff.mpr fun hv => hc (h.entries c hv)

/-- LDC's phase 2 makes records on the path of its code only. -/
theorem Loading.onPath_append (h : Loading s done pos) (q : List Bool) (rest : List Bool) (c : Ch) :
    ∀ p ∈ pos ++ newPositions q rest, p = [] ∨ ∃ e ∈ done ++ [(c, q ++ rest)], p <+: e.2 := by
  intro p hp
  rcases List.mem_append.mp hp with hp | hp
  · exact (h.onPath p hp).imp id fun ⟨e, he, hpre⟩ => ⟨e, List.mem_append_left _ he, hpre⟩
  · exact Or.inr ⟨_, List.mem_append_right _ (List.mem_singleton_self _), prefix_of_mem_newPositions hp⟩

/-- The next LDC of a table that fits succeeds (R92). -/
theorem Loading.ldc (h : Loading s done pos) {c : Ch} {bs : List Bool} (hfit : Fits (done ++ [(c, bs)])) :
    ∃ i t pos', assembleLdc c bs = some i ∧ exec i s = .next t ∧ Loading t (done ++ [(c, bs)]) pos' := by
  obtain ⟨hlo, hhi⟩ := hfit.lengths (c, bs) (by simp)
  have hne : bs ≠ [] := List.ne_nil_of_length_pos hlo
  have hapart : ∀ e ∈ done, e.1 ≠ c ∧ ¬ Conflict e.2 bs := fun e he =>
    (List.pairwise_append.mp hfit.apart).2.2 e he (c, bs) (by simp)
  obtain ⟨len, code, hasm, hlen, hpath⟩ := assembleLdc_eq (c := c) hhi
  obtain ⟨stop, q, b, rest, hdesc, hstop, hq, hfree⟩ := h.descend_stops hne fun e he => (hapart e he).2
  subst hq
  have honPath := h.onPath_append q (b :: rest) c
  have hroom : pos.length + (b :: rest).length ≤ 512 := by
    simpa using hfit.length_le (by simp)
      (nodup_append_newPositions h.arena.nodup h.arena.closed (List.mem_of_getElem? hstop) hfree) honPath
  have hvalid : (clutAt s.clut c).valid = false := h.valid_eq_false fun hc => by
    obtain ⟨e, he, hec⟩ := List.mem_map.mp hc
    exact (hapart e he).1 hec
  have hlen0 : len ≠ 0 := by
    rintro rfl
    exact absurd hlen.symm (Nat.ne_of_gt hlo)
  have hrule : loadPair len c code s = .ok (writeClut c ⟨true, len, code⟩ (growPath c stop (b :: rest) s)) :=
    loadPair_ok_iff.mpr ⟨hlen0, hvalid, stop, b, rest, by rw [hpath, hdesc],
      by rw [h.arena.count]; exact hroom, rfl⟩
  have hframe := ruleOf_ok_fields (i := .ldc len c code) hrule
  have hgrow : Arena (growPath c stop (b :: rest) s) (pos ++ newPositions q (b :: rest))
      ((done ++ [(c, q ++ b :: rest)]).map Prod.snd) :=
    arena_growPath (h.arena.congr rfl rfl (by simp)) hstop hfree hroom (by simp) c
  refine ⟨_, _, pos ++ newPositions q (b :: rest), hasm, h.exec_eq rfl hrule, ?_⟩
  exact
    { err := (congrArg State.err hframe).trans h.err
      trdy := (congrArg State.trdy hframe).trans h.trdy
      entries := by
        intro d hd
        rw [writeClut_clut, clutAt_writeAt, growPath_frame] at hd
        split at hd
        · next hcd => simp [hcd]
        · simpa using Or.inl (h.entries d hd)
      arena := hgrow.congr rfl rfl (List.Subset.refl _)
      onPath := honPath
      grown := by
        have hgrown := h.grown
        simp only [List.length_append, newPositions_length, List.length_cons, List.length_nil]
        omega }

end

theorem Fits.of_append_left {table rest : List (Ch × List Bool)} (h : Fits (table ++ rest)) : Fits table where
  lengths e he := h.lengths e (List.mem_append_left _ he)
  apart := (List.pairwise_append.mp h.apart).1
  room := by
    obtain ⟨positions, hlen, hmem⟩ := h.room
    exact ⟨positions, hlen, fun e he => hmem e (List.mem_append_left _ he)⟩

theorem execAll_append {is js : List Instr} {s t : State} (h : execAll is s = .next t) :
    execAll (is ++ js) s = execAll js t := by
  induction is generalizing s with
  | nil => cases h; rfl
  | cons i is ih =>
    obtain ⟨u, hu⟩ := exec_next i s
    simp only [execAll, hu, List.cons_append] at h ⊢
    exact ih h

/-- The LDCs of a table that fits all succeed, one after the other. -/
theorem Loading.loadPairs {s : State} {done rest : List (Ch × List Bool)} {pos : List (List Bool)}
    (h : Loading s done pos) (hfit : Fits (done ++ rest)) :
    ∃ cmds t pos', loadPairs rest = some cmds ∧ execAll cmds s = .next t ∧ Loading t (done ++ rest) pos' := by
  induction rest generalizing s done pos with
  | nil => exact ⟨[], s, pos, rfl, rfl, by simpa using h⟩
  | cons e rest ih =>
    obtain ⟨c, bs⟩ := e
    rw [List.append_cons] at hfit ⊢
    obtain ⟨i, u, pos', hasm, hexec, hu⟩ := h.ldc hfit.of_append_left
    obtain ⟨cmds, t, pos'', hcmds, hrun, ht⟩ := ih hu hfit
    exact ⟨i :: cmds, t, pos'', by simp [Machine.loadPairs, hasm, hcmds], by simpa [execAll, hexec] using hrun, ht⟩

/-- TCLR executes wherever no fault is recorded (R81, R145). -/
theorem exec_tclr {s : State} (herr : s.err = false) : exec .tclr s = .next (clearTable s) := by
  refine exec_of_ruleOf_ok ?_ rfl
  cases hs : s.phase with
  | loading => rfl
  | ready => rfl
  | faulted => simp [herr] at hs

/-- TFIN closes a table that has a pair (R82). -/
theorem Loading.tfin {s : State} {done : List (Ch × List Bool)} {pos : List (List Bool)} (h : Loading s done pos)
    (hne : done ≠ []) : exec .tfin s = .next { s with trdy := true, cur := 0 } := by
  refine h.exec_eq rfl (finishTable_ok_iff.mpr ⟨fun hbare => ?_, rfl⟩)
  have hgrown := h.grown
  rw [h.arena.rootBare hbare, List.length_singleton] at hgrown
  exact hne (List.length_eq_zero_iff.mp (by omega))

/-- LDTAB of a table that fits ends without a fault in READY (R68). -/
theorem ldtab_of_fits {s : State} {table : List (Ch × List Bool)} (herr : s.err = false) (hne : table ≠ [])
    (hfit : Fits table) :
    ∃ cmds t, ldtab table = some cmds ∧ execAll cmds s = .next t ∧ t.err = false ∧ t.trdy = true := by
  obtain ⟨cmds, t, pos, hcmds, hrun, ht⟩ := (loading_clearTable herr).loadPairs hfit
  refine ⟨.tclr :: cmds ++ [.tfin], { t with trdy := true, cur := 0 }, by simp [ldtab, hcmds], ?_, ht.err, rfl⟩
  have hclear : execAll (.tclr :: cmds) s = .next t := by simpa [execAll, exec_tclr herr] using hrun
  rw [execAll_append hclear]
  simp only [execAll, ht.tfin hne]

/-- Settles O60: the codes of a tree with at most 256 leaves pass through at most 511 positions and part before they
end, so every LDC finds its path free and the arena large enough. -/
theorem hostTableLoadsWithoutAFault : Obligations.HostTableLoadsWithoutAFault := by
  unfold Obligations.HostTableLoadsWithoutAFault
  intro tiebreak s message freq table order herr _ hfreq htable horder hlen
  obtain ⟨tree, htree, rfl⟩ := Option.map_eq_some_iff.mp htable
  have hdistinct : tree.chars.Nodup :=
    ((buildTree_chars htree).trans (hfreq.map Prod.fst)).nodup_iff.mpr (frequencies_keys_nodup message)
  refine ldtab_of_fits herr (fun hnil => codes_ne_nil tree ?_) ((fits_codes hdistinct hlen).perm horder)
  exact (hnil ▸ horder).nil_eq.symm

end Sys2Proof.Machine
end

section
/-! SUPPORT. What a step can do, said once: the words of the commands (spec rules R60 to R66), what a command's own rule
leaves alone, and the invariants a step keeps (R45, R143). -/

namespace Sys2Proof

/-! A legal word is the word of its command (R65) -/

/-- A word is its four fields (R60). -/
theorem formatC_fields (w : Word) : formatC (opField w) (countField w) (byteField w) (lowField w) = w := by
  unfold formatC opField countField byteField lowField
  apply BitVec.eq_of_getLsbD_eq
  intro k hk
  interval_cases k <;> simp

theorem formatC_eq {w : Word} {op a : BitVec 4} {b : BitVec 8} {c : BitVec 16} (hop : opField w = op)
    (ha : countField w = a) (hb : byteField w = b) (hc : lowField w = c) : formatC op a b c = w := by
  rw [← hop, ← ha, ← hb, ← hc, formatC_fields]

/-- LDC's low half is its code when bit 15 is 0 (R61, R63). -/
theorem lowField_of_bit15 {w : Word} (h : w.getLsbD 15 = false) : lowField w = (codeField w).setWidth 16 := by
  apply BitVec.eq_of_getLsbD_eq
  intro k hk
  rcases Nat.lt_or_eq_of_le (Nat.le_of_lt_succ hk) with hlt | rfl
  · simp [lowField, codeField, hk, hlt]
  · simpa [lowField, codeField] using h

/-- DECBIT's low half is its bit when the bits above it are 0 (R64). -/
theorem lowField_of_high_zero {w : Word} (h : lowField w >>> 1 = 0) :
    lowField w = (BitVec.ofBool (w.getLsbD 0)).setWidth 16 := by
  apply BitVec.eq_of_getLsbD_eq
  intro k hk
  cases k with
  | zero => simp [lowField]
  | succ k => simpa [Nat.add_comm] using congrArg (fun x => x.getLsbD k) h

@[simp] theorem wellFormed_ldc {len : CodeLen} {ch : Ch} {code : CodeBits} :
    (Instr.ldc len ch code).WellFormed ↔ code >>> len.toNat = 0 := by simp [Instr.WellFormed, Instr.wellFormed]

@[simp] theorem wellFormed_decb {n : BitVec 4} {g : Byte} :
    (Instr.decb n g).WellFormed ↔ 1 ≤ n.toNat ∧ n.toNat ≤ 8 := by simp [Instr.WellFormed, Instr.wellFormed]

theorem decodeBare_ok {w : Word} {i j : Instr} {op : BitVec 4} (hop : opField w = op)
    (hi : encode i = formatC op 0 0 0) (hwf : i.WellFormed) (h : decodeBare w i = .ok j) :
    encode j = w ∧ j.WellFormed := by
  unfold decodeBare at h
  split at h
  · next hz =>
    obtain ⟨ha, hb, hc⟩ := hz
    cases h
    exact ⟨hi.trans (formatC_eq hop ha hb hc), hwf⟩
  · cases h

theorem decodeLdc_ok {w : Word} {i : Instr} (hop : opField w = 3) (h : decodeLdc w = .ok i) :
    encode i = w ∧ i.WellFormed := by
  unfold decodeLdc at h
  split at h
  · cases h
  · next h15 =>
    split at h
    · next hfit =>
      cases h
      exact ⟨formatC_eq hop rfl rfl (lowField_of_bit15 (Bool.eq_false_iff.mpr h15)),
        wellFormed_ldc.mpr hfit⟩
    · cases h

theorem decodeEnc_ok {w : Word} {i : Instr} (hop : opField w = 5) (h : decodeEnc w = .ok i) :
    encode i = w ∧ i.WellFormed := by
  unfold decodeEnc at h
  split at h
  · next hz =>
    cases h
    exact ⟨formatC_eq hop hz.1 rfl hz.2, rfl⟩
  · cases h

theorem decodeDecbit_ok {w : Word} {i : Instr} (hop : opField w = 7) (h : decodeDecbit w = .ok i) :
    encode i = w ∧ i.WellFormed := by
  unfold decodeDecbit at h
  split at h
  · next hz =>
    obtain ⟨ha, hb, hc⟩ := hz
    cases h
    exact ⟨formatC_eq hop ha hb (lowField_of_high_zero hc), rfl⟩
  · cases h

theorem decodeDecb_ok {w : Word} {i : Instr} (hop : opField w = 8) (h : decodeDecb w = .ok i) :
    encode i = w ∧ i.WellFormed := by
  unfold decodeDecb at h
  split at h
  · cases h
  · next hlow =>
    split at h
    · next hn =>
      cases h
      exact ⟨formatC_eq hop rfl rfl (not_not.mp hlow), wellFormed_decb.mpr hn⟩
    · cases h

/-- A legal word is its command's encoding, and its command is well-formed (R65). -/
theorem encode_of_decode {w : Word} {i : Instr} (h : decode w = .ok i) : encode i = w ∧ i.WellFormed := by
  unfold decode at h
  split at h
  · next hop => exact decodeBare_ok (op := 1) (BitVec.eq_of_toNat_eq hop) rfl rfl h
  · next hop => exact decodeBare_ok (op := 2) (BitVec.eq_of_toNat_eq hop) rfl rfl h
  · next hop => exact decodeLdc_ok (BitVec.eq_of_toNat_eq hop) h
  · next hop => exact decodeBare_ok (op := 4) (BitVec.eq_of_toNat_eq hop) rfl rfl h
  · next hop => exact decodeEnc_ok (BitVec.eq_of_toNat_eq hop) h
  · next hop => exact decodeBare_ok (op := 6) (BitVec.eq_of_toNat_eq hop) rfl rfl h
  · next hop => exact decodeDecbit_ok (BitVec.eq_of_toNat_eq hop) h
  · next hop => exact decodeDecb_ok (BitVec.eq_of_toNat_eq hop) h
  · next hop => exact decodeBare_ok (op := 9) (BitVec.eq_of_toNat_eq hop) rfl rfl h
  · cases h

end Sys2Proof
end

section
/-! SUPPORT. What a step keeps: R145's rows, the effect of a command's rule field by field, and an invariant's cases as
one structure (spec rules R26, R143, R145). -/

namespace Sys2Proof.Machine

/-! R145: the phase in which a command executes -/

@[simp] theorem executes_ldc (len : CodeLen) (ch : Ch) (code : CodeBits) (p : Phase) :
    disposition (.ldc len ch code) p = .executes ↔ p = .loading := by
  cases p <;> simp [disposition, Phase.choose]

@[simp] theorem executes_tfin (p : Phase) : disposition .tfin p = .executes ↔ p = .loading := by
  cases p <;> simp [disposition, Phase.choose]

@[simp] theorem executes_enc (ch : Ch) (p : Phase) : disposition (.enc ch) p = .executes ↔ p = .ready := by
  cases p <;> simp [disposition, Phase.choose]

@[simp] theorem executes_eflush (p : Phase) : disposition .eflush p = .executes ↔ p = .ready := by
  cases p <;> simp [disposition, Phase.choose]

@[simp] theorem executes_decbit (bit : Bool) (p : Phase) :
    disposition (.decbit bit) p = .executes ↔ p = .ready := by
  cases p <;> simp [disposition, Phase.choose]

@[simp] theorem executes_decb (n : BitVec 4) (g : Byte) (p : Phase) :
    disposition (.decb n g) p = .executes ↔ p = .ready := by
  cases p <;> simp [disposition, Phase.choose]

/-! What a rule that succeeds writes -/

/-- No rule that succeeds records a fault (R149). -/
theorem ruleOf_ok_err {i : Instr} {s t : State} (hr : ruleOf i s = .ok t) : t.err = true → s.err = true := by
  have hf := ruleOf_ok_fields hr
  cases i <;> (rw [hf]; simp [State.reset])

/-- LDC writes NODE, NALLOC and CLUT only (R92). -/
theorem loadPair_frame {len : CodeLen} {ch : Ch} {code : CodeBits} {s t : State}
    (hr : loadPair len ch code s = .ok t) : t = { s with node := t.node, nalloc := t.nalloc, clut := t.clut } :=
  ruleOf_ok_fields (i := .ldc len ch code) hr

/-- ENC writes the packer and OUTB only (R54). -/
theorem packChar_frame {ch : Ch} {s t : State} (hr : packChar ch s = .ok t) :
    t = { s with acc := t.acc, acnt := t.acnt, psym := true, pbits := t.pbits, outb := t.outb } :=
  ruleOf_ok_fields (i := .enc ch) hr

/-- EFLUSH writes the packer but PBITS, and OUTB (R54, R101). -/
theorem flushPacker_frame {s t : State} (hr : flushPacker s = .ok t) :
    t = { s with acc := 0, acnt := 0, psym := false, outb := t.outb } :=
  ruleOf_ok_fields (i := .eflush) hr

/-- The packer only appends to OUTB (R44, R100). -/
theorem packBits_outb (bs : List Bool) (s : State) : ∃ groups, (packBits bs s).outb = s.outb ++ groups := by
  induction bs generalizing s with
  | nil => exact ⟨[], by simp⟩
  | cons b bs ih =>
    obtain ⟨groups, hg⟩ := ih (packBit s b)
    rw [packBits_cons, hg, packBit_eq]
    split
    · exact ⟨[shiftIn s.acc b] ++ groups, by simp⟩
    · exact ⟨groups, rfl⟩

/-- Every rule but RESET's appends to both streams (R23). -/
theorem ruleOf_ok_streams {i : Instr} {s t : State} (hi : i ≠ .reset) (hr : ruleOf i s = .ok t) :
    ∃ groups chars, t.outb = s.outb ++ groups ∧ t.outc = s.outc ++ chars := by
  have hf := ruleOf_ok_fields hr
  cases i with
  | reset => exact absurd rfl hi
  | tclr | ldc | tfin | trst => exact ⟨[], [], by rw [hf]; simp⟩
  | enc ch =>
    obtain ⟨-, -, rfl⟩ := packChar_ok_iff.mp hr
    obtain ⟨groups, hg⟩ := packBits_outb (codeBits (clutAt s.clut ch)) s
    exact ⟨groups, [], hg, by rw [hf]; simp⟩
  | eflush =>
    obtain ⟨-, rfl⟩ := flushPacker_ok_iff.mp hr
    by_cases ha : 0 < s.acnt.toNat
    · exact ⟨[paddedGroup s], [], by simp [ha]⟩
    · exact ⟨[], [], by simp [ha]⟩
  | decbit bit =>
    obtain ⟨nxt, oc, -, rfl⟩ := moveOne_ok_iff.mp hr
    exact ⟨[], oc.toList, by simp⟩
  | decb n g =>
    obtain ⟨last, out, -, rfl⟩ := decodeGroup_ok_iff.mp hr
    exact ⟨[], out, by simp⟩

/-! Invariants -/

/-- One move of the traverser as a walk of one bit (R111). -/
theorem walk_singleton {t : List (Nat × Node)} {cur nxt : NodeIdx} {b : Bool} {oc : Option Ch}
    (h : tstep t cur b = .ok (nxt, oc)) : walk t cur [b] = .ok (nxt, oc.toList) := by
  simp [walk, h]

/-- Everything a step does keeps `P`: one field for each thing it can do, DECBIT and DECB as one. -/
structure Kept (P : State → Prop) : Prop where
  input : ∀ {s} moves, P s → P { s with input := moves }
  reset : ∀ s, P (resetBlock s)
  fault : ∀ {s} c w, s.err = false → P s → P (faultEntry c w s)
  tclr : ∀ {s}, P s → P (clearTable s)
  ldc : ∀ {s t len ch code}, s.phase = .loading → (Instr.ldc len ch code).WellFormed → P s →
    loadPair len ch code s = .ok t → P t
  tfin : ∀ {s}, s.phase = .loading → P s → (nodeAt s.node 0).tag ≠ .empty →
    P { s with trdy := true, cur := 0 }
  enc : ∀ {s t ch}, s.phase = .ready → P s → packChar ch s = .ok t → P t
  eflush : ∀ {s t}, s.phase = .ready → P s → flushPacker s = .ok t → P t
  decode : ∀ {s bits last out}, s.phase = .ready → P s → walk s.node s.cur bits = .ok (last, out) →
    P { s with cur := last, outc := s.outc ++ out }
  trst : ∀ {s}, P s → P { s with cur := 0 }

section
variable {P : State → Prop} {s t : State}

theorem Kept.exec (hk : Kept P) {i : Instr} (hi : i.WellFormed) (hs : P s) (h : exec i s = .next t) : P t := by
  rcases exec_cases h with ⟨rfl, -⟩ | ⟨herr, c, rfl⟩ | ⟨hd, hr⟩
  · exact hs
  · exact hk.fault c _ herr hs
  · cases i with
    | reset => cases hr; exact hk.reset s
    | tclr => cases hr; exact hk.tclr hs
    | ldc len ch code => exact hk.ldc ((executes_ldc ..).mp hd) hi hs hr
    | tfin =>
      obtain ⟨hroot, rfl⟩ := finishTable_ok_iff.mp hr
      exact hk.tfin ((executes_tfin _).mp hd) hs hroot
    | enc ch => exact hk.enc ((executes_enc ..).mp hd) hs hr
    | eflush => exact hk.eflush ((executes_eflush _).mp hd) hs hr
    | decbit bit =>
      obtain ⟨nxt, oc, hstep, rfl⟩ := moveOne_ok_iff.mp hr
      exact hk.decode ((executes_decbit ..).mp hd) hs (walk_singleton hstep)
    | decb n g =>
      obtain ⟨last, out, hwalk, rfl⟩ := decodeGroup_ok_iff.mp hr
      exact hk.decode ((executes_decb ..).mp hd) hs hwalk
    | trst => cases hr; exact hk.trst hs

theorem Kept.issue (hk : Kept P) {w : Word} (hs : P s) (h : issue w s = .next t) : P t := by
  unfold Machine.issue at h
  split at h
  · cases h
    unfold rejectWord
    split
    · exact hs
    · next herr => exact hk.fault _ w (Bool.eq_false_iff.mpr herr) hs
  · next hdec => exact hk.exec (encode_of_decode hdec).2 hs h

/-- A step keeps what everything it can do keeps. -/
theorem Kept.step (hk : Kept P) (hs : P s) (h : step s = .next t) : P t := by
  unfold Machine.step at h
  cases hin : s.input with
  | nil => rw [takeMove_nil hin] at h; cases h; exact hs
  | cons m rest =>
    rw [takeMove_cons hin] at h
    cases m with
    | command w => exact hk.issue (hk.input rest hs) h
    | reset => cases h; exact hk.reset _
    | read _ => cases h; exact hk.input rest hs

end

/-! The statements about single steps and registers -/

/-- Settles O15: an illegal word is rejected, and a legal one is the encoding of the command that faults (R65). -/
theorem faultRecordsTheWholeWordIssued : Obligations.FaultRecordsTheWholeWordIssued := by
  unfold Obligations.FaultRecordsTheWholeWordIssued
  intro s t w rest hin herr h ht
  rw [step, takeMove_cons hin, perform, issue] at h
  split at h
  · cases h
    simp [rejectWord, herr, faultEntry]
  · next i hdec =>
    rcases exec_cases h with ⟨-, hs⟩ | ⟨-, c, rfl⟩ | ⟨-, hr⟩
    · exact absurd hs (by simp [herr])
    · rw [(encode_of_decode hdec).1]
      rfl
    · exact absurd (ruleOf_ok_err hr ht) (by simp [herr])

/-- Settles O39: outside its rule a command writes the fault registers at most, and of the rules only the named ones
write the flag. -/
theorem onlyTheNamedCommandsSetAndClearFlags : Obligations.OnlyTheNamedCommandsSetAndClearFlags := by
  unfold Obligations.OnlyTheNamedCommandsSetAndClearFlags
  intro i s t h
  rcases exec_cases h with ⟨rfl, -⟩ | ⟨herr, c, rfl⟩ | ⟨-, hr⟩
  · simp_all
  · simp_all
  · have hf := ruleOf_ok_fields hr
    cases i <;> (rw [hf]; simp +contextual [State.reset])

/-- Settles O40: outside its rule a command writes the fault registers at most, and of the rules only the named ones
write the register. -/
theorem onlyTheNamedCommandsWriteEachRegister : Obligations.OnlyTheNamedCommandsWriteEachRegister := by
  unfold Obligations.OnlyTheNamedCommandsWriteEachRegister
  intro i s t h
  rcases exec_cases h with ⟨rfl, -⟩ | ⟨herr, c, rfl⟩ | ⟨-, hr⟩
  · simp
  · simp [herr]
  · have hf := ruleOf_ok_fields hr
    cases i <;> (rw [hf]; simp)

/-- Settles O41: outside its rule a command emits nothing, and its rule only appends. -/
theorem outputStreamsAreAppendOnly : Obligations.OutputStreamsAreAppendOnly := by
  unfold Obligations.OutputStreamsAreAppendOnly
  intro i s t hi h
  rcases exec_cases h with ⟨rfl, -⟩ | ⟨-, c, rfl⟩ | ⟨-, hr⟩
  · exact ⟨[], [], by simp⟩
  · exact ⟨[], [], by simp⟩
  · exact ruleOf_ok_streams hi hr

/-- Settles O42: LDC and TFIN execute in LOADING only (R145), and no other rule but TCLR's and RESET's writes the
table, the tree or TRDY. -/
theorem tableIsReadOnlyWhenReady : Obligations.TableIsReadOnlyWhenReady := by
  unfold Obligations.TableIsReadOnlyWhenReady
  intro i s t hready htclr hreset h
  rcases exec_cases h with ⟨rfl, -⟩ | ⟨-, c, rfl⟩ | ⟨hd, hr⟩
  · simp [hready]
  · simp [hready]
  · have hf := ruleOf_ok_fields hr
    cases i with
    | reset => exact absurd rfl hreset
    | tclr => exact absurd rfl htclr
    | ldc | tfin => simp [hready] at hd
    | enc | eflush | decbit | decb | trst => rw [hf]; simp [hready]

/-- Settles O6: the lists of both memories are empty, so every index reads as its reset value. -/
theorem resetLeavesEveryRegisterAtItsValue : Obligations.ResetLeavesEveryRegisterAtItsValue := by
  unfold Obligations.ResetLeavesEveryRegisterAtItsValue
  exact ⟨rfl, rfl, rfl, rfl, rfl, rfl, rfl, nodeAt_nil, rfl, clutAt_nil, rfl, rfl, rfl, rfl, rfl, by decide⟩

/-- Settles O12: a read is a move without effect, and with no move pending there is none to perform. -/
theorem readsAndIdlingChangeNothing : Obligations.ReadsAndIdlingChangeNothing := by
  unfold Obligations.ReadsAndIdlingChangeNothing
  exact ⟨fun s raddr rest hin => takeMove_cons hin, fun s hin => takeMove_nil hin⟩

/-- The low bits of a zero-extended register are the register (R24, registers 3 and 4). -/
theorem extractLsb_setWidth_low {n : Nat} (x : BitVec n) (h : n ≤ 32) : (x.setWidth 32).extractLsb' 0 n = x := by
  apply BitVec.eq_of_getLsbD_eq
  intro k hk
  have hk32 : k < 32 := by omega
  simp [hk, hk32]

/-- The bits of a zero-extended register above it are 0 (R24). -/
theorem extractLsb_setWidth_high {n m : Nat} (x : BitVec n) : (x.setWidth 32).extractLsb' n m = 0 := by
  apply BitVec.eq_of_getLsbD_eq
  intro k _
  simp

/-- Settles O18: STATUS bit by bit, and each register read as the bits of its register. -/
theorem readPortShowsTheRegisters : Obligations.ReadPortShowsTheRegisters := by
  unfold Obligations.ReadPortShowsTheRegisters
  intro s
  have hstatus : readPort s 0 = statusWord s := rfl
  have hcur : readPort s 3 = s.cur.setWidth 32 := rfl
  have hnalloc : readPort s 4 = s.nalloc.setWidth 32 := rfl
  rw [hstatus, hcur, hnalloc]
  refine ⟨?err, ?trdy, ?psym, ?atRoot, ?acnt, ?zero, ?cause, ?high, rfl, rfl,
    extractLsb_setWidth_low _ (by decide), extractLsb_setWidth_high _, extractLsb_setWidth_low _ (by decide),
    extractLsb_setWidth_high _, rfl, rfl, rfl⟩
  case acnt | cause | high =>
    apply BitVec.eq_of_getLsbD_eq
    intro k hk
    interval_cases k <;> simp [statusWord]
  case err | trdy | psym | atRoot | zero => simp [statusWord, State.atRoot, Bool.beq_eq_decide_eq]

end Sys2Proof.Machine
end

section
/-! SUPPORT. The invariants of the registers and of each memory by itself: the fault registers, the CLUT entries, the
lists' canonical form, and the packer (spec rules R12, R13, R19, R26). -/

namespace Sys2Proof.Machine

variable {s t : State}

/-! The fault registers (R26 (k), R141) -/

theorem FaultInv.congr (h : FaultInv s) (herr : t.err = s.err) (hcause : t.cause = s.cause)
    (hecmd : t.ecmd = s.ecmd) : FaultInv t where
  noneRecorded := by rw [herr, hcause, hecmd]; exact h.noneRecorded
  causeNamed := by rw [herr, hcause]; exact h.causeNamed

theorem kept_faultInv : Kept FaultInv where
  input _ h := h.congr rfl rfl rfl
  reset _ := ⟨fun _ => ⟨rfl, rfl⟩, nofun⟩
  fault c _ _ _ := ⟨nofun, fun _ => cause_code_range c⟩
  tclr h := h.congr rfl rfl rfl
  ldc _ _ h hr := by
    rw [loadPair_frame hr]
    exact h.congr rfl rfl rfl
  tfin _ h _ := h.congr rfl rfl rfl
  enc _ h hr := by
    rw [packChar_frame hr]
    exact h.congr rfl rfl rfl
  eflush _ h hr := by
    rw [flushPacker_frame hr]
    exact h.congr rfl rfl rfl
  decode _ h _ := h.congr rfl rfl rfl
  trst h := h.congr rfl rfl rfl

/-- Settles O46: fault entry writes a cause of R141, and no rule but RESET's writes a fault register. -/
theorem stepKeepsFaultRegistersInvariant : Obligations.StepKeepsFaultRegistersInvariant := by
  unfold Obligations.StepKeepsFaultRegistersInvariant
  exact fun s t h hstep => kept_faultInv.step h hstep

/-! The memories by themselves (R19, log entry 5) -/

/-- LDC writes its character's entry and no other (R92). -/
theorem loadPair_clutAt {len : CodeLen} {ch : Ch} {code : CodeBits} (hr : loadPair len ch code s = .ok t) (d : Ch) :
    clutAt t.clut d = if d = ch then ⟨true, len, code⟩ else clutAt s.clut d := by
  obtain ⟨-, -, stop, b, bs, -, -, rfl⟩ := loadPair_ok_iff.mp hr
  rw [writeClut_clut, growPath_frame, clutAt_writeAt]
  simp only [eq_comm (a := d)]

/-- A pack command's rule writes neither memory (R54). -/
theorem packChar_memory {ch : Ch} (hr : packChar ch s = .ok t) : t.clut = s.clut ∧ t.node = s.node := by
  rw [packChar_frame hr]
  exact ⟨rfl, rfl⟩

theorem flushPacker_memory (hr : flushPacker s = .ok t) : t.clut = s.clut ∧ t.node = s.node := by
  rw [flushPacker_frame hr]
  exact ⟨rfl, rfl⟩

theorem EntryInv.congr (h : EntryInv s) (hclut : t.clut = s.clut) : EntryInv t where
  codeFits := by rw [hclut]; exact h.codeFits
  invalidZero := by rw [hclut]; exact h.invalidZero

theorem entryInv_of_nil (h : s.clut = []) : EntryInv s where
  codeFits c hc := by rw [h, clutAt_nil] at hc; cases hc
  invalidZero c _ := by rw [h, clutAt_nil]

/-- LDC's entry is a non-empty code of its length (R63, R91 (d)). -/
theorem EntryInv.ldc {len : CodeLen} {ch : Ch} {code : CodeBits} (h : EntryInv s)
    (hwf : (Instr.ldc len ch code).WellFormed) (hr : loadPair len ch code s = .ok t) : EntryInv t where
  codeFits d hd := by
    have hlen : len.toNat ≠ 0 := fun hz => (loadPair_ok_iff.mp hr).1 (BitVec.eq_of_toNat_eq hz)
    rw [loadPair_clutAt hr] at hd ⊢
    split
    · exact ⟨Nat.pos_of_ne_zero hlen, wellFormed_ldc.mp hwf⟩
    · next hne => exact h.codeFits d (by rwa [if_neg hne] at hd)
  invalidZero d hd := by
    rw [loadPair_clutAt hr] at hd ⊢
    split at hd
    · cases hd
    · next hne => rw [if_neg hne, h.invalidZero d hd]

theorem kept_entryInv : Kept EntryInv where
  input _ h := h.congr rfl
  reset _ := entryInv_of_nil rfl
  fault _ _ _ h := h.congr rfl
  tclr _ := entryInv_of_nil rfl
  ldc _ hwf h hr := h.ldc hwf hr
  tfin _ h _ := h.congr rfl
  enc _ h hr := h.congr (packChar_memory hr).1
  eflush _ h hr := h.congr (flushPacker_memory hr).1
  decode _ h _ := h.congr rfl
  trst h := h.congr rfl

/-- Settles O44: LDC alone writes entries, of well-formed commands (R65) with a code that is not empty. -/
theorem stepKeepsClutEntriesWellFormed : Obligations.StepKeepsClutEntriesWellFormed := by
  unfold Obligations.StepKeepsClutEntriesWellFormed
  exact fun s t h hstep => kept_entryInv.step h hstep

theorem memory_wf_congr (h : Memory.wf s) (hm : t.clut = s.clut ∧ t.node = s.node) : Memory.wf t := by
  unfold Memory.wf
  rwa [hm.1, hm.2]

/-- Every step keeps the canonical form: LDC writes through `writeAt` only. -/
theorem kept_memory_wf : Kept Memory.wf where
  input _ h := h
  reset _ := reset_memory_wf
  fault _ _ _ h := h
  tclr _ := reset_memory_wf
  ldc _ _ h hr := by
    obtain ⟨-, -, stop, b, bs, -, -, rfl⟩ := loadPair_ok_iff.mp hr
    exact writeClut_wf _ _ _ (growPath_wf _ _ _ _ h)
  tfin _ h _ := h
  enc _ h hr := memory_wf_congr h (packChar_memory hr)
  eflush _ h hr := memory_wf_congr h (flushPacker_memory hr)
  decode _ h _ := h
  trst h := h

/-! The packer (R26 (h), (i), (j)) -/

/-- Shifting a bit into an accumulator with its high bit 0 doubles it and adds the bit (R100). -/
theorem shiftIn_toNat {acc : BitVec 8} (h : acc.toNat < 128) (b : Bool) :
    (shiftIn acc b).toNat = 2 * acc.toNat + b.toNat := by
  have hlt : acc.toNat <<< 1 < 2 ^ 8 := by rw [Nat.shiftLeft_eq]; omega
  have hb : b.toNat < 2 ^ 1 := by cases b <;> decide
  have hb8 : b.toNat < 2 ^ 8 := by omega
  rw [shiftIn, BitVec.toNat_or, BitVec.toNat_shiftLeft, Nat.mod_eq_of_lt hlt, BitVec.toNat_setWidth,
    BitVec.toNat_ofBool, Nat.mod_eq_of_lt hb8, ← Nat.shiftLeft_add_eq_or_of_lt hb, Nat.shiftLeft_eq]
  omega

/-- The bits of ACC at and above ACNT stay 0 (R26 (h)). -/
theorem packBit_highZero (b : Bool) (h : s.acc.toNat < 2 ^ s.acnt.toNat) :
    (packBit s b).acc.toNat < 2 ^ (packBit s b).acnt.toNat := by
  rw [packBit_eq]
  split
  · exact Nat.zero_lt_one
  · next hne =>
    have hle : s.acnt.toNat ≤ 6 := by omega
    have hacnt : (s.acnt + 1).toNat = s.acnt.toNat + 1 := by bv_omega
    have hpow : 2 ^ s.acnt.toNat ≤ 2 ^ 6 := Nat.pow_le_pow_right (by decide) hle
    have hb := b.toNat_le
    dsimp only
    rw [shiftIn_toNat (by omega), hacnt, Nat.pow_succ]
    omega

theorem packBits_highZero (bs : List Bool) (h : s.acc.toNat < 2 ^ s.acnt.toNat) :
    (packBits bs s).acc.toNat < 2 ^ (packBits bs s).acnt.toNat := by
  induction bs generalizing s with
  | nil => exact h
  | cons b bs ih => exact ih (packBit_highZero b h)

theorem PackerInv.congr (h : PackerInv s) (hacc : t.acc = s.acc) (hacnt : t.acnt = s.acnt) (hpsym : t.psym = s.psym)
    (hpbits : t.pbits = s.pbits) (hphase : t.phase = .loading → s.phase = .loading) : PackerInv t where
  highZero := by rw [hacc, hacnt]; exact h.highZero
  loadingZero hl := by rw [hacc, hacnt, hpsym, hpbits]; exact h.loadingZero (hphase hl)
  openCount := by rw [hacnt, hpsym, hpbits]; exact h.openCount
  closedEmpty := by rw [hacc, hacnt, hpsym]; exact h.closedEmpty

theorem packerInv_of_zero (hacc : s.acc = 0) (hacnt : s.acnt = 0) (hpsym : s.psym = false)
    (hphase : s.phase = .loading → s.pbits = 0) : PackerInv s where
  highZero := by rw [hacc, hacnt]; decide
  loadingZero hl := ⟨hacc, hacnt, hpsym, hphase hl⟩
  openCount ho := by rw [hpsym] at ho; cases ho
  closedEmpty _ := ⟨hacc, hacnt⟩

/-- The count an ENC starts from agrees with ACNT modulo 8, in an open session and in a new one (R26 (j)). -/
theorem PackerInv.bitBase_mod (h : PackerInv s) : bitBase s % 8 = s.acnt.toNat := by
  unfold bitBase
  cases hp : s.psym with
  | true => exact (h.openCount hp).2.symm
  | false => simp [(h.closedEmpty hp).2]

/-- ENC counts at least one bit, because no code is empty (R19, R100). -/
theorem PackerInv.enc {ch : Ch} (h : PackerInv s) (he : EntryInv s) (hready : s.phase = .ready)
    (hr : packChar ch s = .ok t) : PackerInv t := by
  have hf := packChar_frame hr
  obtain ⟨hvalid, hroom, rfl⟩ := packChar_ok_iff.mp hr
  have hlen := (he.codeFits ch hvalid).1
  have hmod := h.bitBase_mod
  constructor
  case highZero => exact packBits_highZero _ h.highZero
  case loadingZero =>
    intro hl
    rw [phase_loading, hf] at hl
    exact absurd hl.2 (by simp [(phase_ready s).mp hready])
  case openCount =>
    intro _
    dsimp only
    rw [packBits_acnt, codeBits_length, BitVec.toNat_ofNat]
    omega
  case closedEmpty => intro hp; cases hp

theorem kept_packerInv : Kept fun s => EntryInv s ∧ PackerInv s where
  input moves h := ⟨kept_entryInv.input moves h.1, h.2.congr rfl rfl rfl rfl id⟩
  reset s := ⟨kept_entryInv.reset s, packerInv_of_zero rfl rfl rfl fun _ => rfl⟩
  fault c w herr h := ⟨kept_entryInv.fault c w herr h.1, h.2.congr rfl rfl rfl rfl (by simp)⟩
  tclr h := ⟨kept_entryInv.tclr h.1, packerInv_of_zero rfl rfl rfl fun _ => rfl⟩
  ldc hload hwf h hr := by
    refine ⟨h.1.ldc hwf hr, ?_⟩
    rw [loadPair_frame hr]
    exact h.2.congr rfl rfl rfl rfl fun _ => hload
  tfin hload h hroot := ⟨kept_entryInv.tfin hload h.1 hroot, h.2.congr rfl rfl rfl rfl (by simp)⟩
  enc hready h hr := ⟨kept_entryInv.enc hready h.1 hr, h.2.enc h.1 hready hr⟩
  eflush hready h hr := by
    refine ⟨kept_entryInv.eflush hready h.1 hr, ?_⟩
    obtain ⟨-, rfl⟩ := flushPacker_ok_iff.mp hr
    exact packerInv_of_zero rfl rfl rfl (by simp [(phase_ready _).mp hready])
  decode hready h hw := ⟨kept_entryInv.decode hready h.1 hw, h.2.congr rfl rfl rfl rfl id⟩
  trst h := ⟨kept_entryInv.trst h.1, h.2.congr rfl rfl rfl rfl id⟩

/-- Settles O45: ENC alone fills the packer, with a code of at least one bit, and counts in PBITS what it packs. -/
theorem stepKeepsPackerInvariant : Obligations.StepKeepsPackerInvariant := by
  unfold Obligations.StepKeepsPackerInvariant
  exact fun s t he h hstep => (kept_packerInv.step ⟨he, h⟩ hstep).2

end Sys2Proof.Machine
end

section
/-! SUPPORT. LDC's phase 2 record by record: what NODE holds after it, in every state with room (spec rules R18, R43,
R92). -/

namespace Sys2Proof.Machine

variable {s : State} {ch : Ch} {cur i : NodeIdx} {b : Bool} {bs : List Bool}

theorem newIndex_eq (s : State) : newIndex s = BitVec.ofNat 9 s.nalloc.toNat := rfl

theorem newIndex_toNat (h : s.nalloc.toNat < 512) : (newIndex s).toNat = s.nalloc.toNat := by
  rw [newIndex_eq, BitVec.toNat_ofNat, Nat.mod_eq_of_lt h]

theorem ne_newIndex (h : s.nalloc.toNat < 512) (hi : i.toNat ≠ s.nalloc.toNat) : i ≠ newIndex s := by
  rintro rfl
  exact hi (newIndex_toNat h)

theorem addChild_nalloc_toNat (n : Node) (h : s.nalloc.toNat < 512) :
    (addChild cur b n s).nalloc.toNat = s.nalloc.toNat + 1 := by
  rw [addChild_nalloc]
  bv_omega

theorem growPath_nalloc_toNat (hroom : s.nalloc.toNat + bs.length ≤ 512) :
    (growPath ch cur bs s).nalloc.toNat = s.nalloc.toNat + bs.length := by
  rw [growPath_nalloc, BitVec.toNat_add, BitVec.toNat_ofNat]
  omega

/-- Outside the new records only the node where the path leaves the tree is written. -/
theorem growPath_old (hroom : s.nalloc.toNat + (b :: bs).length ≤ 512)
    (hi : i.toNat < s.nalloc.toNat ∨ s.nalloc.toNat + (b :: bs).length ≤ i.toNat) :
    nodeAt (growPath ch cur (b :: bs) s).node i =
      if i = cur then (nodeAt s.node cur).withChild b (newIndex s) else nodeAt s.node i := by
  induction bs generalizing b cur s with
  | nil =>
    simp only [List.length_cons, List.length_nil] at hroom hi
    rw [growPath, nodeAt_addChild, if_neg (ne_newIndex (by omega) (by omega))]
  | cons b' bs ih =>
    simp only [List.length_cons] at hroom hi ih
    have hnew : i ≠ newIndex s := ne_newIndex (by omega) (by omega)
    have hcount := addChild_nalloc_toNat (cur := cur) (b := b) ⟨.internal, 0, 0, 0⟩ (s := s) (by omega)
    rw [growPath, ih (by omega) (by omega), if_neg hnew, nodeAt_addChild, if_neg hnew]

/-- Every new record but the last is a branch to the next one, on the next path bit (R92). -/
theorem growPath_branch (hroom : s.nalloc.toNat + (b :: bs).length ≤ 512) {j : Nat} {c : Bool}
    (hj : bs[j]? = some c) :
    nodeAt (growPath ch cur (b :: bs) s).node (BitVec.ofNat 9 (s.nalloc.toNat + j)) =
      (⟨.internal, 0, 0, 0⟩ : Node).withChild c (BitVec.ofNat 9 (s.nalloc.toNat + j + 1)) := by
  induction bs generalizing b cur s j with
  | nil => cases hj
  | cons b' bs ih =>
    simp only [List.length_cons] at hroom ih
    have hcount := addChild_nalloc_toNat (cur := cur) (b := b) ⟨.internal, 0, 0, 0⟩ (s := s) (by omega)
    rw [growPath]
    cases j with
    | zero =>
      cases hj
      have hnew := newIndex_toNat (s := s) (by omega)
      rw [Nat.add_zero, ← newIndex_eq, growPath_old (by simp only [List.length_cons]; omega) (by omega),
        if_pos rfl, nodeAt_addChild, if_pos rfl, newIndex_eq (addChild ..), hcount]
    | succ j =>
      have hrest := ih (b := b') (cur := newIndex s) (s := addChild cur b ⟨.internal, 0, 0, 0⟩ s) (by omega) hj
      rwa [hcount, Nat.add_assoc _ 1 j, Nat.add_comm 1 j] at hrest

/-- The last new record is the leaf (R92). -/
theorem growPath_leaf (hroom : s.nalloc.toNat + (b :: bs).length ≤ 512) :
    nodeAt (growPath ch cur (b :: bs) s).node (BitVec.ofNat 9 (s.nalloc.toNat + bs.length)) =
      ⟨.leaf, ch, 0, 0⟩ := by
  induction bs generalizing b cur s with
  | nil => rw [growPath, nodeAt_addChild, List.length_nil, Nat.add_zero, if_pos (newIndex_eq s).symm]
  | cons b' bs ih =>
    simp only [List.length_cons] at hroom ih ⊢
    have hcount := addChild_nalloc_toNat (cur := cur) (b := b) ⟨.internal, 0, 0, 0⟩ (s := s) (by omega)
    have hrest := ih (b := b') (cur := newIndex s) (s := addChild cur b ⟨.internal, 0, 0, 0⟩ s) (by omega)
    rwa [hcount, Nat.add_assoc _ 1, Nat.add_comm 1] at hrest

/-- Settles O22: phase 2 record by record, in a state where every check of R92 passes. -/
theorem ldcAddsTheRestOfThePath : Obligations.LdcAddsTheRestOfThePath := by
  unfold Obligations.LdcAddsTheRestOfThePath
  intro s len ch code stop b bs herr htrdy hlen hvalid hdesc hroom
  have hr : loadPair len ch code s = .ok (writeClut ch ⟨true, len, code⟩ (growPath ch stop (b :: bs) s)) :=
    loadPair_ok_iff.mpr ⟨hlen, hvalid, stop, b, bs, hdesc, hroom, rfl⟩
  have hd : disposition (.ldc len ch code) s.phase = .executes := by simp [herr, htrdy]
  exact ⟨_, exec_of_ruleOf_ok hd hr, loadPair_frame hr, growPath_nalloc_toNat hroom, loadPair_clutAt hr,
    fun i hi => growPath_old hroom hi, fun j c hj => growPath_branch hroom hj, growPath_leaf hroom⟩

end Sys2Proof.Machine
end

section
/-! SUPPORT. The arena as a tree: one round of LDC's phase 2 keeps it but for the node just made, and the traverser
stays on a branch point (spec rules R17, R18, R26 (a) to (d), (g), R42, R92, R112). -/

namespace Sys2Proof.Machine

/-- What `TreeInv` says of the arena itself, except that the record `tip` may be a branch point with no child yet: the
node at which LDC's phase 2 goes on (R92). -/
structure Growing (node : List (Nat × Node)) (nalloc : BitVec 10) (tip : NodeIdx) : Prop where
  allocRange : 1 ≤ nalloc.toNat ∧ nalloc.toNat ≤ 512
  childRange : ∀ i b, (nodeAt node i).child b ≠ 0 →
    i.toNat < ((nodeAt node i).child b).toNat ∧ ((nodeAt node i).child b).toNat < nalloc.toNat
  hasChild : ∀ i, i ≠ tip → (nodeAt node i).tag = .internal → ∃ b, (nodeAt node i).child b ≠ 0
  oneParent : ∀ i j a b, (nodeAt node i).child a = (nodeAt node j).child b → (nodeAt node i).child a ≠ 0 →
    i = j ∧ a = b
  hasParent : ∀ j : NodeIdx, 0 < j.toNat → j.toNat < nalloc.toNat → ∃ i b, (nodeAt node i).child b = j
  rootNotLeaf : (nodeAt node 0).tag ≠ .leaf
  rootEmpty : (nodeAt node 0).tag = .empty ↔ nalloc = 1
  tagged : ∀ i : NodeIdx, 0 < i.toNat → i.toNat < nalloc.toNat → (nodeAt node i).tag ≠ .empty
  links : ∀ i b, (nodeAt node i).child b ≠ 0 → (nodeAt node i).tag = .internal
  chars : ∀ i, (nodeAt node i).tag ≠ .leaf → (nodeAt node i).ch = 0
  unallocated : ∀ i : NodeIdx, nalloc.toNat ≤ i.toNat → nodeAt node i = emptyNode

theorem exists_child_ne_zero {n : Node} : (∃ b, n.child b ≠ 0) ↔ n.l ≠ 0 ∨ n.r ≠ 0 := by
  simp [Node.child]

theorem TreeInv.growing {s : State} (h : TreeInv s) (tip : NodeIdx) : Growing s.node s.nalloc tip where
  allocRange := h.allocRange
  childRange i b hne := by
    have hi : (nodeAt s.node i).tag = .internal := by
      by_contra hn
      exact absurd (exists_child_ne_zero.mp ⟨b, hne⟩) (by simp [h.links i hn])
    exact (h.childRange i b hi).resolve_left hne
  hasChild i _ hi := exists_child_ne_zero.mpr (h.hasChild i hi)
  oneParent := h.oneParent
  hasParent := h.hasParent
  rootNotLeaf := h.rootNotLeaf
  rootEmpty := h.rootEmpty
  tagged := h.tagged
  links i b hne := by
    by_contra hn
    exact absurd (exists_child_ne_zero.mp ⟨b, hne⟩) (by simp [h.links i hn])
  chars := h.chars
  unallocated := h.unallocated

/-- A tree whose last record is finished, with the traverser on it, is all of `TreeInv`. -/
theorem Growing.treeInv {t : State} {tip : NodeIdx} (h : Growing t.node t.nalloc tip)
    (htip : (nodeAt t.node tip).tag = .internal → ∃ b, (nodeAt t.node tip).child b ≠ 0)
    (hcur : t.cur = 0 ∨ (t.cur.toNat < t.nalloc.toNat ∧ (nodeAt t.node t.cur).tag = .internal))
    (hloading : t.phase = .loading → t.cur = 0) (hready : t.trdy = true → (nodeAt t.node 0).tag = .internal) :
    TreeInv t where
  allocRange := h.allocRange
  childRange i b _ := or_iff_not_imp_left.mpr (h.childRange i b)
  hasChild i hi := exists_child_ne_zero.mp <| by
    by_cases heq : i = tip
    · subst heq; exact htip hi
    · exact h.hasChild i heq hi
  oneParent := h.oneParent
  hasParent := h.hasParent
  rootNotLeaf := h.rootNotLeaf
  rootEmpty := h.rootEmpty
  tagged := h.tagged
  links i hi := by
    by_contra hn
    obtain ⟨b, hb⟩ := exists_child_ne_zero.mpr (not_and_or.mp hn)
    exact hi (h.links i b hb)
  chars := h.chars
  unallocated := h.unallocated
  cursor := hcur
  loadingAtRoot := hloading
  readyRooted := hready

/-! One round of LDC's phase 2 -/

section
variable {s : State} {tip i : NodeIdx} {b d : Bool}

/-- Every link after a round: the new record has none, the tip got it as its child on `b`, the others stay. -/
theorem child_addChild {n : Node} (hn : ∀ d, n.child d = 0) : (nodeAt (addChild tip b n s).node i).child d =
    if i = newIndex s then 0 else if i = tip ∧ d = b then newIndex s else (nodeAt s.node i).child d := by
  rw [nodeAt_addChild]
  by_cases hnew : i = newIndex s
  · rw [if_pos hnew, if_pos hnew, hn]
  · rw [if_neg hnew, if_neg hnew]
    by_cases htip : i = tip <;> simp [htip]

theorem tag_addChild (n : Node) : (nodeAt (addChild tip b n s).node i).tag =
    if i = newIndex s then n.tag else if i = tip then .internal else (nodeAt s.node i).tag := by
  rw [nodeAt_addChild]
  split_ifs <;> simp

@[simp] theorem ch_withChild (n : Node) (b : Bool) (j : NodeIdx) : (n.withChild b j).ch = n.ch := by
  cases b <;> rfl

theorem ch_addChild (n : Node) : (nodeAt (addChild tip b n s).node i).ch =
    if i = newIndex s then n.ch else (nodeAt s.node i).ch := by
  rw [nodeAt_addChild]
  split_ifs with _ htip
  · rfl
  · simp [htip]
  · rfl

/-- Every link after a round is the new one or an old one. -/
theorem child_addChild_cases {n : Node} (hn : ∀ d, n.child d = 0)
    (hc : (nodeAt (addChild tip b n s).node i).child d ≠ 0) :
    (i = tip ∧ d = b) ∧ (nodeAt (addChild tip b n s).node i).child d = newIndex s ∨
    (nodeAt s.node i).child d ≠ 0 ∧
      (nodeAt (addChild tip b n s).node i).child d = (nodeAt s.node i).child d := by
  rw [child_addChild hn] at hc ⊢
  split_ifs at hc ⊢ with hnew hlink
  · exact absurd rfl hc
  · exact Or.inl ⟨hlink, rfl⟩
  · exact Or.inr ⟨hc, rfl⟩

/-- Only an allocated record has links. -/
theorem Growing.lt_of_child (h : Growing s.node s.nalloc tip) (hc : (nodeAt s.node i).child d ≠ 0) :
    i.toNat < s.nalloc.toNat := by
  obtain ⟨hlo, hhi⟩ := h.childRange i d hc
  exact hlo.trans hhi

theorem Growing.newIndex_ne_zero (h : Growing s.node s.nalloc tip) (hroom : s.nalloc.toNat < 512) :
    0 ≠ newIndex s :=
  ne_newIndex hroom (Nat.ne_of_lt h.allocRange.1)

/-- A round breaks no link: where it writes one there was none. -/
theorem Growing.child_addChild_of_ne (h : Growing s.node s.nalloc tip) (hfree : (nodeAt s.node tip).child b = 0)
    (hroom : s.nalloc.toNat < 512) {n : Node} (hn : ∀ d, n.child d = 0) (hc : (nodeAt s.node i).child d ≠ 0) :
    (nodeAt (addChild tip b n s).node i).child d = (nodeAt s.node i).child d := by
  have hnew : i ≠ newIndex s := ne_newIndex hroom (h.lt_of_child hc).ne
  rw [child_addChild hn, if_neg hnew, if_neg]
  rintro ⟨rfl, rfl⟩
  exact hc hfree

/-- After a round every node but the root still has one parent: no old link leads to the new record. -/
theorem Growing.oneParent_addChild (h : Growing s.node s.nalloc tip) (hroom : s.nalloc.toNat < 512) {n : Node}
    (hn : ∀ d, n.child d = 0) {j : NodeIdx} {a c : Bool}
    (heq : (nodeAt (addChild tip b n s).node i).child a = (nodeAt (addChild tip b n s).node j).child c)
    (hc : (nodeAt (addChild tip b n s).node i).child a ≠ 0) : i = j ∧ a = c := by
  have hne : ∀ {i d}, (nodeAt s.node i).child d ≠ 0 → (nodeAt s.node i).child d ≠ newIndex s := fun hd =>
    ne_newIndex hroom (h.childRange _ _ hd).2.ne
  rcases child_addChild_cases hn hc with ⟨⟨hi, ha⟩, hl⟩ | ⟨hold, hl⟩ <;>
    rcases child_addChild_cases hn (heq ▸ hc) with ⟨⟨hj, hd⟩, hl'⟩ | ⟨hold', hl'⟩ <;> rw [hl, hl'] at heq
  · exact ⟨hi.trans hj.symm, ha.trans hd.symm⟩
  · exact absurd heq.symm (hne hold')
  · exact absurd heq (hne hold)
  · exact h.oneParent i j a c heq hold

/-- After a round the root is no longer EMPTY: it is the tip, or it was a branch point before. -/
theorem Growing.root_addChild_ne_empty (h : Growing s.node s.nalloc tip) (htip : tip.toNat < s.nalloc.toNat)
    (hroom : s.nalloc.toNat < 512) (n : Node) : (nodeAt (addChild tip b n s).node 0).tag ≠ .empty := by
  rw [tag_addChild, if_neg (h.newIndex_ne_zero hroom)]
  split_ifs with hroot
  · simp
  · intro he
    have hone : s.nalloc.toNat = 1 := congrArg BitVec.toNat (h.rootEmpty.mp he)
    exact hroot (BitVec.eq_of_toNat_eq (by rw [hone] at htip; simp; omega))

/-- A round of phase 2 keeps the tree, the new record being the one that may have no child yet. -/
theorem Growing.after_addChild (h : Growing s.node s.nalloc tip) (htip : tip.toNat < s.nalloc.toNat)
    (hopen : (nodeAt s.node tip).tag ≠ .leaf) (hfree : (nodeAt s.node tip).child b = 0)
    (hroom : s.nalloc.toNat < 512) {n : Node} (hn : ∀ d, n.child d = 0) (htag : n.tag ≠ .empty)
    (hch : n.tag ≠ .leaf → n.ch = 0) :
    Growing (addChild tip b n s).node (addChild tip b n s).nalloc (newIndex s) := by
  have hnew := newIndex_toNat hroom
  have hcount := addChild_nalloc_toNat (cur := tip) (b := b) n hroom
  have hpos := h.allocRange.1
  have hold : ∀ {i : NodeIdx}, i.toNat < (addChild tip b n s).nalloc.toNat → i ≠ newIndex s →
      i.toNat < s.nalloc.toNat := fun {i} hlt hne => by
    have : i.toNat ≠ (newIndex s).toNat := fun he => hne (BitVec.eq_of_toNat_eq he)
    omega
  constructor
  case allocRange => omega
  case childRange =>
    intro i d hc
    rcases child_addChild_cases hn hc with ⟨⟨rfl, -⟩, hl⟩ | ⟨hc', hl⟩ <;> rw [hl, hcount]
    · omega
    · have hrange := h.childRange i d hc'
      omega
  case hasChild =>
    intro i hi hint
    by_cases heq : i = tip
    · refine ⟨b, ?_⟩
      rw [child_addChild hn, if_neg hi, if_pos ⟨heq, rfl⟩]
      exact (h.newIndex_ne_zero hroom).symm
    · rw [tag_addChild, if_neg hi, if_neg heq] at hint
      obtain ⟨d, hd⟩ := h.hasChild i heq hint
      exact ⟨d, by rwa [h.child_addChild_of_ne hfree hroom hn hd]⟩
  case oneParent => exact fun i j a c heq hc => h.oneParent_addChild hroom hn heq hc
  case hasParent =>
    intro j hj hlt
    by_cases heq : j = newIndex s
    · exact ⟨tip, b, by rw [child_addChild hn, if_neg (ne_newIndex hroom htip.ne), if_pos ⟨rfl, rfl⟩, heq]⟩
    · obtain ⟨i, d, rfl⟩ := h.hasParent j hj (hold hlt heq)
      exact ⟨i, d, h.child_addChild_of_ne hfree hroom hn fun hz => by simp [hz] at hj⟩
  case rootNotLeaf =>
    rw [tag_addChild, if_neg (h.newIndex_ne_zero hroom)]
    split_ifs
    · simp
    · exact h.rootNotLeaf
  case rootEmpty =>
    refine iff_of_false (h.root_addChild_ne_empty htip hroom n) fun hone => ?_
    rw [hone] at hcount
    simp at hcount
    omega
  case tagged =>
    intro i hi hlt
    rw [tag_addChild]
    split_ifs with heq
    · exact htag
    · simp
    · exact h.tagged i hi (hold hlt heq)
  case links =>
    intro i d hc
    rcases child_addChild_cases hn hc with ⟨⟨rfl, -⟩, -⟩ | ⟨hc', -⟩ <;> rw [tag_addChild]
    · rw [if_neg (ne_newIndex hroom htip.ne), if_pos rfl]
    · rw [if_neg (ne_newIndex hroom (h.lt_of_child hc').ne), h.links i d hc', ite_self]
  case chars =>
    intro i hi
    rw [tag_addChild] at hi
    rw [ch_addChild]
    split_ifs at hi ⊢ with hnew' htip'
    · exact hch hi
    · exact h.chars i (htip' ▸ hopen)
    · exact h.chars i hi
  case unallocated =>
    intro i hi
    have hne : i ≠ newIndex s := ne_newIndex hroom (by omega)
    rw [nodeAt_addChild, if_neg hne, if_neg (by rintro rfl; omega)]
    exact h.unallocated i (by omega)

/-- LDC's phase 2 keeps the tree and ends it in a leaf (R92). -/
theorem Growing.after_growPath {ch : Ch} {bs : List Bool} (h : Growing s.node s.nalloc tip)
    (htip : tip.toNat < s.nalloc.toNat) (hopen : (nodeAt s.node tip).tag ≠ .leaf)
    (hfree : (nodeAt s.node tip).child b = 0) (hroom : s.nalloc.toNat + (b :: bs).length ≤ 512) :
    ∃ last, Growing (growPath ch tip (b :: bs) s).node (growPath ch tip (b :: bs) s).nalloc last ∧
      (nodeAt (growPath ch tip (b :: bs) s).node last).tag = .leaf := by
  induction bs generalizing b tip s with
  | nil =>
    refine ⟨_, h.after_addChild htip hopen hfree hroom (child_of_no_links _ _) (by simp) (by simp), ?_⟩
    rw [growPath, tag_addChild, if_pos rfl]
  | cons b' bs ih =>
    simp only [List.length_cons] at hroom ih
    have hbare := child_of_no_links .internal 0
    have hcount := addChild_nalloc_toNat (cur := tip) (b := b) ⟨.internal, 0, 0, 0⟩ (s := s) (by omega)
    have hnew := newIndex_toNat (s := s) (by omega)
    refine ih (h.after_addChild htip hopen hfree (by omega) hbare (by simp) (by simp)) (by omega) ?_ ?_ (by omega)
    · rw [tag_addChild, if_pos rfl]
      simp
    · rw [child_addChild hbare, if_pos rfl]

/-- Phase 1 stays on allocated records (R92). -/
theorem Growing.descend_lt (h : Growing s.node s.nalloc tip) {cur stop : NodeIdx} {bs rest : List Bool}
    (hcur : cur.toNat < s.nalloc.toNat) (hd : descend s.node cur bs = .ok (stop, rest)) :
    stop.toNat < s.nalloc.toNat := by
  induction bs generalizing cur with
  | nil => cases hd; exact hcur
  | cons b bs ih =>
    unfold descend at hd
    split at hd
    · cases hd
    · simp only at hd
      split at hd
      · cases hd; exact hcur
      · next hc => exact ih (h.childRange cur b hc).2 hd

end

/-! The steps -/

section
variable {s t : State}

/-- The arena of a state with nothing loaded (R27, R81). -/
theorem treeInv_of_nil (hnode : s.node = []) (hnalloc : s.nalloc = 1) (hcur : s.cur = 0) (htrdy : s.trdy = false) :
    TreeInv s := by
  have hbare : ∀ i, nodeAt s.node i = emptyNode := fun i => by rw [hnode, nodeAt_nil]
  constructor
  case allocRange => simp [hnalloc]
  case hasParent => intro j hj hlt; simp [hnalloc] at hlt; omega
  case tagged => intro i hi hlt; simp [hnalloc] at hlt; omega
  case oneParent => intro i j a b _ hne; exact absurd (by rw [hbare]; exact child_of_no_links ..) hne
  case cursor => exact Or.inl hcur
  case loadingAtRoot => exact fun _ => hcur
  case readyRooted => simp [htrdy]
  case childRange | hasChild | rootNotLeaf | rootEmpty | links | chars | unallocated =>
    simp [hbare, emptyNode, hnalloc]

/-- A command that leaves the arena alone keeps the tree when it leaves the traverser on a branch point. -/
theorem TreeInv.withCursor (h : TreeInv s) (hnode : t.node = s.node) (hnalloc : t.nalloc = s.nalloc)
    (hcur : t.cur = 0 ∨ (t.cur.toNat < s.nalloc.toNat ∧ (nodeAt s.node t.cur).tag = .internal))
    (hloading : t.phase = .loading → t.cur = 0) (hready : t.trdy = true → (nodeAt s.node 0).tag = .internal) :
    TreeInv t := by
  have hg := h.growing 0
  rw [← hnode] at hcur hready
  rw [← hnalloc] at hcur
  refine Growing.treeInv (tip := 0) (by rwa [hnode, hnalloc]) ?_ hcur hloading hready
  rw [hnode]
  exact fun hi => exists_child_ne_zero.mpr (h.hasChild 0 hi)

theorem tag_eq_internal {tag : NodeTag} (he : tag ≠ .empty) (hl : tag ≠ .leaf) : tag = .internal := by
  cases tag with
  | empty => exact absurd rfl he
  | internal => rfl
  | leaf => exact absurd rfl hl

/-- The child of a record is a branch point or a leaf (R17). -/
theorem TreeInv.tag_child (h : TreeInv s) {i : NodeIdx} {b : Bool} (hc : (nodeAt s.node i).child b ≠ 0)
    (hleaf : (nodeAt s.node ((nodeAt s.node i).child b)).tag ≠ .leaf) :
    ((nodeAt s.node i).child b).toNat < s.nalloc.toNat ∧
      (nodeAt s.node ((nodeAt s.node i).child b)).tag = .internal := by
  obtain ⟨hlo, hhi⟩ := (h.growing 0).childRange i b hc
  exact ⟨hhi, tag_eq_internal (h.tagged _ (Nat.zero_lt_of_lt hlo) hhi) hleaf⟩

/-- A move leaves the traverser at the root or on a branch point (R112, R26 (g)). -/
theorem TreeInv.tstep_cursor (h : TreeInv s) {cur nxt : NodeIdx} {b : Bool} {oc : Option Ch}
    (hstep : tstep s.node cur b = .ok (nxt, oc)) :
    nxt = 0 ∨ (nxt.toNat < s.nalloc.toNat ∧ (nodeAt s.node nxt).tag = .internal) := by
  unfold tstep at hstep
  simp only at hstep
  split_ifs at hstep with hz hleaf
  · cases hstep
    exact Or.inl rfl
  · cases hstep
    exact Or.inr (h.tag_child hz hleaf)

theorem TreeInv.walk_cursor (h : TreeInv s) {cur last : NodeIdx} {bs : List Bool} {out : List Ch}
    (hcur : cur = 0 ∨ (cur.toNat < s.nalloc.toNat ∧ (nodeAt s.node cur).tag = .internal))
    (hw : walk s.node cur bs = .ok (last, out)) :
    last = 0 ∨ (last.toNat < s.nalloc.toNat ∧ (nodeAt s.node last).tag = .internal) := by
  induction bs generalizing cur out with
  | nil => cases hw; exact hcur
  | cons b bs ih =>
    rw [walk_cons] at hw
    split at hw
    · cases hw
    · next hstep =>
      split at hw
      · cases hw
      · next hrest =>
        cases hw
        exact ih (h.tstep_cursor hstep) hrest

/-- LDC grows the tree at a record that is no leaf and has no child there, with the traverser at the root (R92). -/
theorem TreeInv.ldc (h : TreeInv s) {len : CodeLen} {ch : Ch} {code : CodeBits} (hload : s.phase = .loading)
    (hr : loadPair len ch code s = .ok t) : TreeInv t := by
  have hf := loadPair_frame hr
  obtain ⟨-, -, stop, b, bs, hdesc, hroom, rfl⟩ := loadPair_ok_iff.mp hr
  obtain ⟨hopen, hfree, -⟩ := descend_stop hdesc
  have hstop := (h.growing 0).descend_lt (cur := 0) h.allocRange.1 hdesc
  obtain ⟨last, hgrown, hlast⟩ := (h.growing stop).after_growPath (ch := ch) hstop hopen hfree hroom
  have hcur := h.loadingAtRoot hload
  refine Growing.treeInv hgrown (fun hi => ?_) ?_ ?_ ?_
  · exact absurd (hi.symm.trans hlast) (by simp)
  · rw [hf]; exact Or.inl hcur
  · rw [hf]; exact fun _ => hcur
  · rw [hf]; simp [(phase_loading s).mp hload]

theorem kept_treeInv : Kept TreeInv where
  input _ h := h.withCursor rfl rfl h.cursor h.loadingAtRoot h.readyRooted
  reset _ := treeInv_of_nil rfl rfl rfl rfl
  fault _ _ _ h := h.withCursor rfl rfl h.cursor (by simp) h.readyRooted
  tclr _ := treeInv_of_nil rfl rfl rfl rfl
  ldc hload _ h hr := h.ldc hload hr
  tfin _ h hroot := h.withCursor rfl rfl (Or.inl rfl) (fun _ => rfl) fun _ =>
    tag_eq_internal hroot h.rootNotLeaf
  enc _ h hr := by
    rw [packChar_frame hr]
    exact h.withCursor rfl rfl h.cursor h.loadingAtRoot h.readyRooted
  eflush _ h hr := by
    rw [flushPacker_frame hr]
    exact h.withCursor rfl rfl h.cursor h.loadingAtRoot h.readyRooted
  decode hready h hw := h.withCursor rfl rfl (h.walk_cursor h.cursor hw)
    (by simp [(phase_ready _).mp hready]) h.readyRooted
  trst h := h.withCursor rfl rfl (Or.inl rfl) (fun _ => rfl) h.readyRooted

/-- Settles O47: LDC grows the tree below the node where its path leaves it, and the traverser moves along links. -/
theorem stepKeepsTheArenaATree : Obligations.StepKeepsTheArenaATree := by
  unfold Obligations.StepKeepsTheArenaATree
  exact fun s t h hstep => kept_treeInv.step h hstep

end

end Sys2Proof.Machine
end

section
/-! SUPPORT. The CLUT and the tree as one code table: what LDC does to paths and leaves, and the invariants of R26 in
every reachable state (spec rules R26 (c), (e), (f), R90, R91, R94, R190). -/

namespace Sys2Proof.Machine

variable {s t : State}

/-! Paths -/

theorem follow_cons_eq_some {t : List (Nat × Node)} {cur i : NodeIdx} {b : Bool} {bs : List Bool} :
    follow t cur (b :: bs) = some i ↔
      (nodeAt t cur).child b ≠ 0 ∧ follow t ((nodeAt t cur).child b) bs = some i := by
  rw [follow]
  split <;> simp_all

/-- A path leads where it led when no link is broken. -/
theorem follow_of_links_kept {t u : List (Nat × Node)} {cur i : NodeIdx} {p : List Bool}
    (hkept : ∀ i b, (nodeAt t i).child b ≠ 0 → (nodeAt u i).child b = (nodeAt t i).child b)
    (h : follow t cur p = some i) : follow u cur p = some i := by
  induction p generalizing cur with
  | nil => exact h
  | cons b p ih =>
    obtain ⟨hne, hrest⟩ := follow_cons_eq_some.mp h
    rw [follow_cons_eq_some, hkept cur b hne]
    exact ⟨hne, ih hrest⟩

theorem follow_append {t : List (Nat × Node)} {cur mid i : NodeIdx} {p q : List Bool}
    (hp : follow t cur p = some mid) (hq : follow t mid q = some i) : follow t cur (p ++ q) = some i := by
  induction p generalizing cur with
  | nil => cases hp; exact hq
  | cons b p ih =>
    obtain ⟨hne, hrest⟩ := follow_cons_eq_some.mp hp
    exact follow_cons_eq_some.mpr ⟨hne, ih hrest⟩

/-- LDC's phase 1 follows the part of the path that exists (R92). -/
theorem follow_of_descend {t : List (Nat × Node)} {cur stop : NodeIdx} {bs rest : List Bool}
    (h : descend t cur bs = .ok (stop, rest)) : ∃ pre, bs = pre ++ rest ∧ follow t cur pre = some stop := by
  induction bs generalizing cur with
  | nil => cases h; exact ⟨[], rfl, rfl⟩
  | cons b bs ih =>
    unfold descend at h
    simp only at h
    split_ifs at h with hleaf hz
    · cases h; exact ⟨[], rfl, rfl⟩
    · obtain ⟨pre, rfl, hpre⟩ := ih h
      exact ⟨b :: pre, rfl, follow_cons_eq_some.mpr ⟨hz, hpre⟩⟩

/-- Where phase 1 leaves the tree with bits left, its path conflicts with no path to a leaf (R91 (a), (b), (c)). -/
theorem not_conflict_of_descend {t : List (Nat × Node)} {cur stop i : NodeIdx} {b : Bool} {bs rest q : List Bool}
    (hd : descend t cur bs = .ok (stop, b :: rest)) (hq : follow t cur q = some i)
    (hleaf : (nodeAt t i).tag = .leaf) : ¬ Conflict q bs := by
  induction bs generalizing cur q with
  | nil => cases hd
  | cons b' bs ih =>
    unfold descend at hd
    simp only at hd
    split_ifs at hd with hcur hz
    · cases q with
      | nil => cases hq; exact absurd hleaf hcur
      | cons d q =>
        rw [conflict_cons_cons]
        rintro ⟨rfl, -⟩
        exact (follow_cons_eq_some.mp hq).1 hz
    · cases q with
      | nil => cases hq; exact absurd hleaf hcur
      | cons d q =>
        rw [conflict_cons_cons]
        rintro ⟨rfl, hconf⟩
        exact ih hd (follow_cons_eq_some.mp hq).2 hconf

/-! LDC's phase 2 -/

section
variable {ch : Ch} {tip i : NodeIdx} {b d : Bool} {bs : List Bool}

/-- Phase 2 breaks no link. -/
theorem Growing.child_growPath_of_ne (h : Growing s.node s.nalloc tip) (hfree : (nodeAt s.node tip).child b = 0)
    (hroom : s.nalloc.toNat + (b :: bs).length ≤ 512) (hc : (nodeAt s.node i).child d ≠ 0) :
    (nodeAt (growPath ch tip (b :: bs) s).node i).child d = (nodeAt s.node i).child d := by
  rw [growPath_old hroom (Or.inl (h.lt_of_child hc))]
  split_ifs with heq
  · subst heq
    rw [child_withChild, if_neg]
    rintro rfl
    exact hc hfree
  · rfl

/-- Phase 2 links the node where the path leaves the tree to the first new record. -/
theorem child_growPath_tip (htip : tip.toNat < s.nalloc.toNat) (hroom : s.nalloc.toNat + (b :: bs).length ≤ 512) :
    (nodeAt (growPath ch tip (b :: bs) s).node tip).child b = newIndex s := by
  rw [growPath_old hroom (Or.inl htip), if_pos rfl, child_withChild, if_pos rfl]

/-- The new records are the rest of the path (R43, R92). -/
theorem follow_growPath (htip : tip.toNat < s.nalloc.toNat) (hroom : s.nalloc.toNat + (b :: bs).length ≤ 512) :
    follow (growPath ch tip (b :: bs) s).node tip (b :: bs) =
      some (BitVec.ofNat 9 (s.nalloc.toNat + bs.length)) := by
  rw [follow_cons_eq_some, child_growPath_tip htip hroom]
  induction bs generalizing b tip s with
  | nil =>
    simp only [List.length_cons, List.length_nil] at hroom
    exact ⟨(ne_newIndex (by omega) (by simp; omega)).symm, rfl⟩
  | cons b' bs ih =>
    simp only [List.length_cons] at hroom ih ⊢
    have hlt : s.nalloc.toNat < 512 := by omega
    have hnew := newIndex_toNat hlt
    have hcount := addChild_nalloc_toNat (cur := tip) (b := b) ⟨.internal, 0, 0, 0⟩ hlt
    refine ⟨(ne_newIndex hlt (by simp; omega)).symm, ?_⟩
    have hrest := ih (b := b') (tip := newIndex s) (s := addChild tip b ⟨.internal, 0, 0, 0⟩ s)
      (by omega) (by omega)
    rw [growPath, follow_cons_eq_some, child_growPath_tip (by omega) (by simp only [List.length_cons]; omega)]
    rwa [hcount, Nat.add_assoc _ 1, Nat.add_comm 1] at hrest

/-- Phase 2 keeps the leaves. -/
theorem Growing.leaf_growPath (h : Growing s.node s.nalloc tip) (hopen : (nodeAt s.node tip).tag ≠ .leaf)
    (hroom : s.nalloc.toNat + (b :: bs).length ≤ 512) (hi : (nodeAt s.node i).tag = .leaf) :
    nodeAt (growPath ch tip (b :: bs) s).node i = nodeAt s.node i := by
  have hlt : i.toNat < s.nalloc.toNat := by
    by_contra hge
    rw [h.unallocated i (Nat.le_of_not_lt hge)] at hi
    cases hi
  rw [growPath_old hroom (Or.inl hlt), if_neg]
  rintro rfl
  exact hopen hi

/-- Phase 2 makes one leaf, the last new record. -/
theorem leaf_of_leaf_growPath (hroom : s.nalloc.toNat + (b :: bs).length ≤ 512)
    (hi : (nodeAt (growPath ch tip (b :: bs) s).node i).tag = .leaf) :
    i = BitVec.ofNat 9 (s.nalloc.toNat + bs.length) ∨
      nodeAt (growPath ch tip (b :: bs) s).node i = nodeAt s.node i := by
  by_cases hold : i.toNat < s.nalloc.toNat ∨ s.nalloc.toNat + (b :: bs).length ≤ i.toNat
  · right
    rw [growPath_old hroom hold] at hi ⊢
    split_ifs at hi ⊢
    · simp at hi
    · rfl
  · left
    obtain ⟨j, hj⟩ := Nat.exists_eq_add_of_le (Nat.le_of_not_lt (not_or.mp hold).1)
    have hij : i = BitVec.ofNat 9 (s.nalloc.toNat + j) := by rw [← hj, BitVec.ofNat_toNat, BitVec.setWidth_eq]
    rcases Nat.lt_or_ge j bs.length with hlt | hge
    · rw [hij, growPath_branch hroom (List.getElem?_eq_getElem hlt)] at hi
      simp at hi
    · simp only [List.length_cons] at hold
      rw [hij, show j = bs.length by omega]

end

/-! LDC (R90, R92) -/

section
variable {len : CodeLen} {ch : Ch} {code : CodeBits}

/-- The codes that LDC accepts conflict with no path to a leaf (R91). -/
theorem loadPair_not_conflict (hr : loadPair len ch code s = .ok t) {q : List Bool} {i : NodeIdx}
    (hq : follow s.node 0 q = some i) (hleaf : (nodeAt s.node i).tag = .leaf) :
    ¬ Conflict q (pathBits len.toNat code) := by
  obtain ⟨-, -, stop, b, bs, hdesc, -, -⟩ := loadPair_ok_iff.mp hr
  exact not_conflict_of_descend hdesc hq hleaf

/-- LDC keeps every path of the tree (R90). -/
theorem TreeInv.follow_loadPair (h : TreeInv s) (hr : loadPair len ch code s = .ok t) {p : List Bool} {i : NodeIdx}
    (hp : follow s.node 0 p = some i) : follow t.node 0 p = some i := by
  obtain ⟨-, -, stop, b, bs, hdesc, hroom, rfl⟩ := loadPair_ok_iff.mp hr
  exact follow_of_links_kept (fun _ _ hc =>
    (h.growing stop).child_growPath_of_ne (descend_stop hdesc).2.1 hroom hc) hp

/-- LDC keeps every leaf of the tree. -/
theorem TreeInv.leaf_loadPair (h : TreeInv s) (hr : loadPair len ch code s = .ok t) {i : NodeIdx}
    (hi : (nodeAt s.node i).tag = .leaf) : nodeAt t.node i = nodeAt s.node i := by
  obtain ⟨-, -, stop, b, bs, hdesc, hroom, rfl⟩ := loadPair_ok_iff.mp hr
  exact (h.growing stop).leaf_growPath (descend_stop hdesc).1 hroom hi

/-- After LDC the path of its code leads to the leaf of its character, and every other leaf is an old one (R90). -/
theorem TreeInv.newLeaf_loadPair (h : TreeInv s) (hr : loadPair len ch code s = .ok t) :
    ∃ last, follow t.node 0 (pathBits len.toNat code) = some last ∧ nodeAt t.node last = ⟨.leaf, ch, 0, 0⟩ ∧
      ∀ i, (nodeAt t.node i).tag = .leaf → i = last ∨ nodeAt t.node i = nodeAt s.node i := by
  have hkept := fun pre stop => h.follow_loadPair hr (p := pre) (i := stop)
  obtain ⟨-, -, stop, b, bs, hdesc, hroom, rfl⟩ := loadPair_ok_iff.mp hr
  obtain ⟨pre, hpath, hpre⟩ := follow_of_descend hdesc
  have hstop := (h.growing 0).descend_lt (cur := 0) h.allocRange.1 hdesc
  refine ⟨_, ?_, growPath_leaf hroom, fun i hi => leaf_of_leaf_growPath hroom hi⟩
  rw [hpath]
  exact follow_append (hkept pre stop hpre) (follow_growPath hstop hroom)

theorem CodeInv.not_conflict (h : CodeInv s) (hr : loadPair len ch code s = .ok t) {d : Ch}
    (hd : (clutAt s.clut d).valid = true) : ¬ Conflict (codeBits (clutAt s.clut d)) (pathBits len.toNat code) := by
  obtain ⟨i, hfollow, hi⟩ := h.leafOf d hd
  exact loadPair_not_conflict hr hfollow (by rw [hi])

/-- A tree with a leaf has more than its root. -/
theorem TreeInv.root_ne_empty (h : TreeInv s) {i : NodeIdx} (hi : (nodeAt s.node i).tag = .leaf) :
    (nodeAt s.node 0).tag ≠ .empty := by
  intro he
  have hroot : i ≠ 0 := fun hz => h.rootNotLeaf (hz ▸ hi)
  have hpos : i.toNat ≠ 0 := fun hz => hroot (BitVec.eq_of_toNat_eq hz)
  have hone : s.nalloc.toNat = 1 := congrArg BitVec.toNat (h.rootEmpty.mp he)
  rw [h.unallocated i (by omega)] at hi
  cases hi

/-- LDC adds its character's code to CLUT and tree alike (R90, R94). -/
theorem CodeInv.ldc (h : CodeInv s) (ht : TreeInv s) (hload : s.phase = .loading)
    (hr : loadPair len ch code s = .ok t) : CodeInv t := by
  have hch : clutAt t.clut ch = ⟨true, len, code⟩ := by rw [loadPair_clutAt hr, if_pos rfl]
  have hother : ∀ {d}, d ≠ ch → clutAt t.clut d = clutAt s.clut d := fun hne => by
    rw [loadPair_clutAt hr, if_neg hne]
  have hfresh : ∀ {d}, (clutAt s.clut d).valid = true → d ≠ ch := by
    rintro d hd rfl
    exact absurd hd (by simp [(loadPair_ok_iff.mp hr).2.1])
  obtain ⟨last, hpath, hlast, hleaves⟩ := ht.newLeaf_loadPair hr
  have hcodeOf : ∀ {i}, (nodeAt t.node i).tag = .leaf → nodeAt t.node i = nodeAt s.node i →
      (clutAt s.clut (nodeAt t.node i).ch).valid = true := fun hi heq => by
    rw [heq] at hi ⊢
    exact h.codeOf _ hi
  constructor
  case leafOf =>
    intro d hd
    by_cases heq : d = ch
    · subst heq
      rw [hch]
      exact ⟨last, hpath, hlast⟩
    · rw [hother heq] at hd ⊢
      obtain ⟨i, hfollow, hi⟩ := h.leafOf d hd
      exact ⟨i, ht.follow_loadPair hr hfollow, by rw [ht.leaf_loadPair hr (by rw [hi]), hi]⟩
  case codeOf =>
    intro i hi
    rcases hleaves i hi with rfl | heq
    · rw [hlast, hch]
    · have hvalid := hcodeOf hi heq
      rwa [hother (hfresh hvalid)]
  case oneLeaf =>
    intro i j hi hj hij
    rcases hleaves i hi with rfl | hi' <;> rcases hleaves j hj with rfl | hj'
    · rfl
    · exact absurd hij.symm (by simpa [hlast] using hfresh (hcodeOf hj hj'))
    · exact absurd hij (by simpa [hlast] using hfresh (hcodeOf hi hi'))
    · rw [hi'] at hi hij
      rw [hj'] at hj hij
      exact h.oneLeaf i j hi hj hij
  case prefixFree =>
    intro c d hc hd hne hpre
    by_cases hcc : c = ch
    · subst hcc
      rw [hch, hother hne.symm] at hpre
      rw [hother hne.symm] at hd
      exact h.not_conflict hr hd (Or.inr hpre)
    · rw [hother hcc] at hc hpre
      by_cases hdc : d = ch
      · subst hdc
        rw [hch] at hpre
        exact h.not_conflict hr hc (Or.inl hpre)
      · rw [hother hdc] at hd hpre
        exact h.prefixFree c d hc hd hne hpre
  case emptyTable =>
    exact iff_of_false ((ht.ldc hload hr).root_ne_empty (by rw [hlast])) fun hall =>
      absurd (hall ch) (by simp [hch])

end

theorem CodeInv.congr (h : CodeInv s) (hm : t.clut = s.clut ∧ t.node = s.node) : CodeInv t where
  leafOf := by rw [hm.1, hm.2]; exact h.leafOf
  codeOf := by rw [hm.1, hm.2]; exact h.codeOf
  oneLeaf := by rw [hm.2]; exact h.oneLeaf
  prefixFree := by rw [hm.1]; exact h.prefixFree
  emptyTable := by rw [hm.1, hm.2]; exact h.emptyTable

theorem codeInv_of_nil (hclut : s.clut = []) (hnode : s.node = []) : CodeInv s := by
  constructor <;> simp [hclut, hnode, noCode, emptyNode]

theorem kept_codeInv : Kept fun s => TreeInv s ∧ CodeInv s where
  input moves h := ⟨kept_treeInv.input moves h.1, h.2.congr ⟨rfl, rfl⟩⟩
  reset s := ⟨kept_treeInv.reset s, codeInv_of_nil rfl rfl⟩
  fault c w herr h := ⟨kept_treeInv.fault c w herr h.1, h.2.congr ⟨rfl, rfl⟩⟩
  tclr h := ⟨kept_treeInv.tclr h.1, codeInv_of_nil rfl rfl⟩
  ldc hload _ h hr := ⟨h.1.ldc hload hr, h.2.ldc h.1 hload hr⟩
  tfin hload h hroot := ⟨kept_treeInv.tfin hload h.1 hroot, h.2.congr ⟨rfl, rfl⟩⟩
  enc hready h hr := ⟨kept_treeInv.enc hready h.1 hr, h.2.congr (packChar_memory hr)⟩
  eflush hready h hr := ⟨kept_treeInv.eflush hready h.1 hr, h.2.congr (flushPacker_memory hr)⟩
  decode hready h hw := ⟨kept_treeInv.decode hready h.1 hw, h.2.congr ⟨rfl, rfl⟩⟩
  trst h := ⟨kept_treeInv.trst h.1, h.2.congr ⟨rfl, rfl⟩⟩

/-- Settles O48: LDC adds one code and the leaf its path leads to, and it accepts no code that conflicts with one
loaded. -/
theorem stepKeepsTheCodeTablePrefixFree : Obligations.StepKeepsTheCodeTablePrefixFree := by
  unfold Obligations.StepKeepsTheCodeTablePrefixFree
  exact fun s t _ ht h hstep => (kept_codeInv.step ⟨ht, h⟩ hstep).2

/-! All of R26 -/

theorem Inv.step (h : Inv s) (hstep : step s = .next t) : Inv t where
  memory := kept_memory_wf.step h.memory hstep
  entries := kept_entryInv.step h.entries hstep
  packer := (kept_packerInv.step ⟨h.entries, h.packer⟩ hstep).2
  faults := kept_faultInv.step h.faults hstep
  tree := kept_treeInv.step h.tree hstep
  codes := (kept_codeInv.step ⟨h.tree, h.codes⟩ hstep).2

theorem inv_resetBlock (s : State) : Inv (resetBlock s) where
  memory := kept_memory_wf.reset s
  entries := kept_entryInv.reset s
  packer := (kept_packerInv.reset s).2
  faults := kept_faultInv.reset s
  tree := kept_treeInv.reset s
  codes := (kept_codeInv.reset s).2

/-- A run keeps what every step keeps (R190). -/
theorem run_keeps {P : State → Prop} (hstep : ∀ s t, P s → step s = .next t → P t) {k : Nat} {s t : State}
    (hs : P s) (hrun : Host.Core.run core k s = .next t) : P t := by
  induction k generalizing s with
  | zero => cases hrun; exact hs
  | succ k ih =>
    simp only [Host.Core.run] at hrun
    split at hrun
    · next u hu => exact ih (hstep s u hs hu) hrun
    · cases hrun
    · cases hrun

/-- Settles O50: reset makes a state with the invariants, and every step keeps them. -/
theorem reachableStatesSatisfyTheInvariants : Obligations.ReachableStatesSatisfyTheInvariants := by
  unfold Obligations.ReachableStatesSatisfyTheInvariants
  refine ⟨fun s t h hstep => h.step hstep, ?_⟩
  rintro t ⟨k, moves, hrun⟩
  exact run_keeps (fun _ _ h hstep => Inv.step h hstep) (inv_resetBlock { State.reset with input := moves }) hrun

end Sys2Proof.Machine
end

section
/-! SUPPORT. The memories in every step, the pack and decode commands side by side, and runs over pending words (spec
rules R40, R46 to R48, R51, R54, R100). -/

namespace Sys2Proof.Machine

variable {s t : State}

/-- Settles O43: every memory write of a step goes through `writeAt`, which keeps the canonical form. -/
theorem stepKeepsMemoryCanonical : Obligations.StepKeepsMemoryCanonical := by
  unfold Obligations.StepKeepsMemoryCanonical
  exact fun s t h hstep => kept_memory_wf.step h hstep

/-! The packed stream (R46 to R48, R100) -/

/-- Shifting a bit into ACC drops its first bit and appends the new one (R11, R100). -/
theorem byteBits_shiftIn (acc : Byte) (b : Bool) : byteBits (shiftIn acc b) = (byteBits acc).drop 1 ++ [b] := by
  simp [byteBits, shiftIn]

@[simp] theorem streamBits_append (gs hs : List Byte) : streamBits (gs ++ hs) = streamBits gs ++ streamBits hs :=
  List.flatMap_append

@[simp] theorem streamBits_singleton (g : Byte) : streamBits [g] = byteBits g := List.flatMap_singleton ..

/-- One bit into the packer is one bit more of the packed stream, whether or not a group leaves (R100). -/
theorem packedBits_packBit (s : State) (b : Bool) : packedBits (packBit s b) = packedBits s ++ [b] := by
  rw [packBit_eq]
  split
  · next h => simp [packedBits, pendingBits, byteBits_shiftIn, h]
  · next h =>
    have hacnt : (s.acnt + 1).toNat = s.acnt.toNat + 1 := by bv_omega
    have hlen : 7 - s.acnt.toNat ≤ ((byteBits s.acc).drop 1).length := by simp
    have hdrop : 1 + (7 - s.acnt.toNat) = 8 - s.acnt.toNat := by omega
    simp only [packedBits, pendingBits, byteBits_shiftIn, hacnt, Nat.reduceSubDiff]
    rw [List.drop_append_of_le_length hlen, List.drop_drop, hdrop, List.append_assoc]

theorem packedBits_packBits (bs : List Bool) (s : State) : packedBits (packBits bs s) = packedBits s ++ bs := by
  induction bs generalizing s with
  | nil => simp
  | cons b bs ih => rw [packBits_cons, ih, packedBits_packBit, List.append_assoc, List.singleton_append]

/-- A group leaves for every eight bits held (R100 corner case 5). -/
theorem packBits_outb_length (bs : List Bool) (s : State) :
    (packBits bs s).outb.length = s.outb.length + (s.acnt.toNat + bs.length) / 8 := by
  induction bs generalizing s with
  | nil => simp [Nat.div_eq_of_lt s.acnt.isLt]
  | cons b bs ih =>
    have hout : (packBit s b).outb.length = s.outb.length + (s.acnt.toNat + 1) / 8 := by
      have := s.acnt.isLt
      rw [packBit_eq]
      split
      · next h => simp [h]
      · simp only; omega
    rw [packBits_cons, ih, hout, packBit_acnt, List.length_cons]
    omega

/-- Settles O28: ENC's rule succeeds, and it packs the bits of the code one after the other. -/
theorem encAppendsTheCodeOfItsCharacter : Obligations.EncAppendsTheCodeOfItsCharacter := by
  unfold Obligations.EncAppendsTheCodeOfItsCharacter
  intro s ch herr htrdy hvalid hroom
  have hrule := packChar_ok_iff.mpr ⟨hvalid, hroom, rfl⟩
  refine ⟨_, exec_of_ruleOf_ok (i := .enc ch) ((executes_enc ..).mpr ((phase_ready s).mpr ⟨herr, htrdy⟩)) hrule,
    packChar_frame hrule, ?_, ?_, ?_, packedBits_packBits _ s, packBits_highZero _⟩
  · exact Nat.mod_eq_of_lt (Nat.lt_succ_of_le hroom)
  · rw [packBits_acnt, codeBits_length]
  · obtain ⟨groups, hgroups⟩ := packBits_outb (codeBits (clutAt s.clut ch)) s
    have hlen := packBits_outb_length (codeBits (clutAt s.clut ch)) s
    rw [hgroups, List.length_append, codeBits_length] at hlen
    exact ⟨groups, hgroups, Nat.add_left_cancel hlen⟩

/-! The pack and the decode commands (R54) -/

/-- Settles O35: outside its rule a command writes the fault registers at most, and the rules write the packer. -/
theorem packCommandsFrame : Obligations.PackCommandsFrame := by
  unfold Obligations.PackCommandsFrame
  intro s t i hi h
  rcases exec_cases h with ⟨rfl, -⟩ | ⟨-, c, rfl⟩ | ⟨-, hr⟩
  · exact ⟨rfl, fun _ => rfl⟩
  · exact ⟨rfl, fun _ => rfl⟩
  · have hf := ruleOf_ok_fields hr
    rcases hi with rfl | ⟨ch, rfl⟩ <;> (rw [hf]; simp)

/-- TRST executes in every phase but FAULTED (R83, R145). -/
theorem exec_trst (herr : s.err = false) : exec .trst s = .next { s with cur := 0 } := by
  refine exec_of_ruleOf_ok ?_ rfl
  cases hs : s.phase with
  | loading => rfl
  | ready => rfl
  | faulted => simp [herr] at hs

/-- Settles O36: outside its rule a command writes the fault registers at most, and the rules write the traverser. -/
theorem decodeCommandsFrame : Obligations.DecodeCommandsFrame := by
  unfold Obligations.DecodeCommandsFrame
  intro s t i hi h
  rcases exec_cases h with ⟨rfl, -⟩ | ⟨herr, c, rfl⟩ | ⟨-, hr⟩
  · exact ⟨rfl, fun _ => ⟨rfl, rfl, rfl, rfl⟩⟩
  · refine ⟨rfl, ?_⟩
    rintro rfl
    rw [exec_trst herr] at h
    exact absurd (congrArg State.err (Host.Outcome.next.inj h)) (by simp [herr])
  · have hf := ruleOf_ok_fields hr
    rcases hi with rfl | ⟨bit, rfl⟩ | ⟨n, g, rfl⟩ <;> (rw [hf]; simp)

/-- The packer's arithmetic reads and writes neither the traverser, OUTC nor the pending moves (R54). -/
theorem packBits_withTraverser (bs : List Bool) (s : State) (cur : NodeIdx) (outc : List Ch) (moves : List HostMove) :
    packBits bs { s with cur := cur, outc := outc, input := moves } =
      { packBits bs s with cur := cur, outc := outc, input := moves } := by
  induction bs generalizing s with
  | nil => rfl
  | cons b bs ih =>
    rw [packBits_cons, packBits_cons, ← ih]
    congr 1
    rw [packBit_eq, packBit_eq]
    split <;> rfl

/-- A pack command does the same wherever the traverser is and whatever it has emitted (R54). -/
theorem ruleOf_pack_withTraverser {p : Instr} (hp : p = .eflush ∨ ∃ ch, p = .enc ch) (hr : ruleOf p s = .ok t)
    (cur : NodeIdx) (outc : List Ch) :
    ruleOf p { s with cur := cur, outc := outc } = .ok { t with cur := cur, outc := outc } := by
  rcases hp with rfl | ⟨ch, rfl⟩
  · obtain ⟨hopen, rfl⟩ := flushPacker_ok_iff.mp hr
    exact flushPacker_ok_iff.mpr ⟨hopen, rfl⟩
  · obtain ⟨hvalid, hroom, rfl⟩ := packChar_ok_iff.mp hr
    refine packChar_ok_iff.mpr ⟨hvalid, hroom, ?_⟩
    rw [packBits_withTraverser _ s cur outc s.input, packBits_frame]
    rfl

/-- A decode command does the same in every state with the tree, the traverser and the characters emitted so far
(R54). -/
theorem ruleOf_decode_congr {d : Instr} (hd : d = .trst ∨ (∃ bit, d = .decbit bit) ∨ ∃ n g, d = .decb n g)
    (hr : ruleOf d s = .ok t) {u : State} (hnode : u.node = s.node) (hcur : u.cur = s.cur) (houtc : u.outc = s.outc) :
    ruleOf d u = .ok { u with cur := t.cur, outc := t.outc } := by
  rcases hd with rfl | ⟨bit, rfl⟩ | ⟨n, g, rfl⟩
  · cases hr
    rw [← houtc]
    rfl
  · obtain ⟨nxt, oc, hstep, rfl⟩ := moveOne_ok_iff.mp hr
    exact moveOne_ok_iff.mpr ⟨nxt, oc, by rw [hnode, hcur, hstep], by rw [houtc]⟩
  · obtain ⟨last, out, hwalk, rfl⟩ := decodeGroup_ok_iff.mp hr
    exact decodeGroup_ok_iff.mpr ⟨last, out, by rw [hnode, hcur, hwalk], by rw [houtc]⟩

/-- A command that ends without a fault is one that executes, and its rule succeeds (R143, R149). -/
theorem ruleOf_ok_of_exec {i : Instr} (h : exec i s = .next t) (hs : s.err = false) (ht : t.err = false) :
    disposition i s.phase = .executes ∧ ruleOf i s = .ok t := by
  rcases exec_cases h with ⟨-, herr⟩ | ⟨-, c, rfl⟩ | hr
  · exact absurd herr (by simp [hs])
  · cases ht
  · exact hr

theorem execAll_pair {i j : Instr} {u : State} (hi : exec i s = .next t) (hj : exec j t = .next u) :
    execAll [i, j] s = .next u := by
  simp [execAll, hi, hj]

/-- Settles O38: neither command reads what the other writes, so either order writes both. -/
theorem packAndDecodeCommandsCommute : Obligations.PackAndDecodeCommandsCommute := by
  unfold Obligations.PackAndDecodeCommandsCommute
  intro s a b p d hp hd herr _ ha haerr hb hberr
  obtain ⟨hpx, hpr⟩ := ruleOf_ok_of_exec ha herr haerr
  obtain ⟨hdx, hdr⟩ := ruleOf_ok_of_exec hb herr hberr
  have hfa := (packCommandsFrame s a p hp ha).1
  have hphase : a.phase = s.phase := by
    simp only [State.phase, haerr, herr]
    rw [hfa]
  have hb' : b = { s with cur := b.cur, outc := b.outc } :=
    Except.ok.inj (hdr.symm.trans (ruleOf_decode_congr hd hdr rfl rfl rfl))
  refine ⟨{ a with cur := b.cur, outc := b.outc }, execAll_pair ha ?_, execAll_pair hb ?_, haerr⟩
  · refine exec_of_ruleOf_ok (hphase ▸ hdx) (ruleOf_decode_congr hd hdr ?_ ?_ ?_) <;> rw [hfa]
  · rw [hb']
    exact exec_of_ruleOf_ok hpx (ruleOf_pack_withTraverser hp hpr _ _)

/-! The pending moves (log entry 1) -/

theorem growPath_withInput (ch : Ch) (cur : NodeIdx) (bs : List Bool) (s : State) (moves : List HostMove) :
    growPath ch cur bs { s with input := moves } = { growPath ch cur bs s with input := moves } := by
  induction bs generalizing cur s with
  | nil => rfl
  | cons b bs ih =>
    cases bs with
    | nil => rfl
    | cons b' bs => exact ih (newIndex s) (addChild cur b ⟨.internal, 0, 0, 0⟩ s)

theorem loadPair_withInput (len : CodeLen) (ch : Ch) (code : CodeBits) (s : State) (moves : List HostMove) :
    loadPair len ch code { s with input := moves } =
      (loadPair len ch code s).map fun t => { t with input := moves } := by
  unfold loadPair
  split_ifs
  · rfl
  · rfl
  cases descend s.node 0 (pathBits len.toNat code) with
  | error c => rfl
  | ok p =>
    obtain ⟨stop, _ | ⟨b, bs⟩⟩ := p
    · rfl
    · simp only [growPath_withInput]
      split <;> rfl

theorem packChar_withInput (ch : Ch) (s : State) (moves : List HostMove) :
    packChar ch { s with input := moves } = (packChar ch s).map fun t => { t with input := moves } := by
  have hbase : bitBase { s with input := moves } = bitBase s := rfl
  have hpack := packBits_withTraverser (codeBits (clutAt s.clut ch)) s s.cur s.outc moves
  simp only [packChar, hbase, hpack]
  split_ifs
  · rfl
  · rfl
  · rw [packBits_frame]
    rfl

/-- No command's own rule reads or writes the pending moves. -/
theorem ruleOf_withInput (i : Instr) (s : State) (moves : List HostMove) :
    ruleOf i { s with input := moves } = (ruleOf i s).map fun t => { t with input := moves } := by
  cases i with
  | reset | tclr | trst => rfl
  | ldc len ch code => exact loadPair_withInput len ch code s moves
  | tfin =>
    simp only [ruleOf, finishTable]
    split <;> rfl
  | enc ch => exact packChar_withInput ch s moves
  | eflush =>
    simp only [ruleOf, flushPacker]
    split_ifs <;> rfl
  | decbit bit =>
    simp only [ruleOf, moveOne]
    cases tstep s.node s.cur bit <;> rfl
  | decb n g =>
    simp only [ruleOf, decodeGroup]
    cases walk s.node s.cur (groupBits n g) <;> rfl

theorem exec_withInput {i : Instr} (h : exec i s = .next t) (moves : List HostMove) :
    exec i { s with input := moves } = .next { t with input := moves } := by
  have hphase : State.phase { s with input := moves } = s.phase := rfl
  rw [exec_eq_runCommand, runCommand] at h ⊢
  rw [hphase, ruleOf_withInput]
  cases hd : disposition i s.phase with
  | ignored | sequenceError => rw [hd] at h; cases h; rfl
  | executes =>
    rw [hd] at h
    cases hr : ruleOf i s with
    | ok u => rw [hr] at h; cases h; rfl
    | error c => rw [hr] at h; cases h; rfl

/-- What a word does is done whatever the host's later moves are, and leaves them pending. -/
theorem issue_withInput {w : Word} (h : issue w s = .next t) (moves : List HostMove) :
    issue w { s with input := moves } = .next { t with input := moves } := by
  unfold issue at h ⊢
  cases hdec : decode w with
  | error e =>
    rw [hdec] at h
    cases h
    simp only [rejectWord]
    split <;> rfl
  | ok i =>
    rw [hdec] at h
    exact exec_withInput h moves

/-- Every word ends in a next state (R189, R190). -/
theorem issue_next (w : Word) (s : State) : ∃ t, issue w s = .next t := by
  unfold issue
  cases decode w with
  | error e => exact ⟨_, rfl⟩
  | ok i => exact exec_next i s

theorem run_succ {k : Nat} (h : step s = .next t) : Host.Core.run core (k + 1) s = Host.Core.run core k t := by
  have hcore : core.step s = .next t := h
  simp only [Host.Core.run, hcore]

/-- Settles O55: a step issues the first pending word, and what that does leaves the moves after it alone. -/
theorem runIssuesThePendingWordsInOrder : Obligations.RunIssuesThePendingWordsInOrder := by
  unfold Obligations.RunIssuesThePendingWordsInOrder
  intro s ws rest
  induction ws generalizing s with
  | nil => rfl
  | cons w ws ih =>
    obtain ⟨t, ht⟩ := issue_next w s
    have hstep : step { s with input := (w :: ws).map .command ++ rest } =
        .next { t with input := ws.map .command ++ rest } := issue_withInput ht _
    rw [List.length_cons, run_succ hstep, issueAll, issue_withInput ht]
    exact ih t

end Sys2Proof.Machine
end

section
/-! SUPPORT. The tree of a state that satisfies R26 as the trie of its code table: a node is at one path, every path
leads on to a leaf, and a leaf is where its character's code ends (spec rules R26, R43, R112). -/

namespace Sys2Proof.Machine

variable {s t : State}

/-! Paths of a tree (R17, R26 (b)) -/

theorem follow_snoc_eq_some {t : List (Nat × Node)} {cur i : NodeIdx} {p : List Bool} {b : Bool} :
    follow t cur (p ++ [b]) = some i ↔ ∃ j, follow t cur p = some j ∧ (nodeAt t j).child b = i ∧ i ≠ 0 := by
  induction p generalizing cur with
  | nil =>
    rw [List.nil_append, follow_cons_eq_some]
    simp only [follow, Option.some.injEq, exists_eq_left']
    constructor
    · rintro ⟨hne, rfl⟩; exact ⟨rfl, hne⟩
    · rintro ⟨rfl, hne⟩; exact ⟨hne, rfl⟩
  | cons d p ih => simp only [List.cons_append, follow_cons_eq_some, ih, and_assoc, exists_and_left]

theorem follow_of_append {t : List (Nat × Node)} {cur i : NodeIdx} {p q : List Bool}
    (h : follow t cur (p ++ q) = some i) : ∃ j, follow t cur p = some j := by
  induction p generalizing cur with
  | nil => exact ⟨cur, rfl⟩
  | cons b p ih =>
    obtain ⟨hne, hrest⟩ := follow_cons_eq_some.mp h
    obtain ⟨j, hj⟩ := ih hrest
    exact ⟨j, follow_cons_eq_some.mpr ⟨hne, hj⟩⟩

/-- A child's index is above its parent's and is in use. -/
theorem TreeInv.child_range (h : TreeInv s) {i : NodeIdx} {b : Bool} (hc : (nodeAt s.node i).child b ≠ 0) :
    i.toNat < ((nodeAt s.node i).child b).toNat ∧ ((nodeAt s.node i).child b).toNat < s.nalloc.toNat :=
  (h.growing 0).childRange i b hc

/-- Two paths from the root to one node are the same path (R26 (b)). -/
theorem TreeInv.follow_unique (h : TreeInv s) {p q : List Bool} {i : NodeIdx} (hp : follow s.node 0 p = some i)
    (hq : follow s.node 0 q = some i) : p = q := by
  induction p using List.reverseRecOn generalizing q i with
  | nil =>
    cases hp
    cases q using List.reverseRecOn with
    | nil => rfl
    | append_singleton q d =>
      obtain ⟨_, _, _, hne⟩ := follow_snoc_eq_some.mp hq
      exact absurd rfl hne
  | append_singleton p b ih =>
    obtain ⟨j, hpj, hj, hne⟩ := follow_snoc_eq_some.mp hp
    cases q using List.reverseRecOn with
    | nil => cases hq; exact absurd rfl hne
    | append_singleton q d =>
      obtain ⟨k, hqk, hk, -⟩ := follow_snoc_eq_some.mp hq
      obtain ⟨rfl, rfl⟩ := h.oneParent j k b d (hj.trans hk.symm) (hj ▸ hne)
      rw [ih hpj hqk]

/-- The end of a path that is not empty is a branch point or a leaf. -/
theorem TreeInv.tag_follow (h : TreeInv s) {p : List Bool} {i : NodeIdx} (hp : follow s.node 0 p = some i)
    (hne : p ≠ []) : (nodeAt s.node i).tag ≠ .empty := by
  cases p using List.reverseRecOn with
  | nil => exact absurd rfl hne
  | append_singleton p b =>
    obtain ⟨j, -, rfl, hi⟩ := follow_snoc_eq_some.mp hp
    obtain ⟨hlo, hhi⟩ := h.child_range hi
    exact h.tagged _ (Nat.zero_lt_of_lt hlo) hhi

/-- Every record in use leads on to a leaf: a branch point has a child, and indices rise along links (R26 (a)). -/
theorem TreeInv.exists_leaf_below (h : TreeInv s) (i : NodeIdx) (hi : (nodeAt s.node i).tag ≠ .empty) :
    ∃ q j, follow s.node i q = some j ∧ (nodeAt s.node j).tag = .leaf := by
  induction hk : 512 - i.toNat using Nat.strong_induction_on generalizing i with
  | _ k ih =>
    by_cases hleaf : (nodeAt s.node i).tag = .leaf
    · exact ⟨[], i, rfl, hleaf⟩
    · obtain ⟨b, hc⟩ := exists_child_ne_zero.mpr (h.hasChild i (tag_eq_internal hi hleaf))
      obtain ⟨hlo, hhi⟩ := h.child_range hc
      have hlt := ((nodeAt s.node i).child b).isLt
      obtain ⟨q, j, hq, hj⟩ := ih (512 - ((nodeAt s.node i).child b).toNat) (by omega) _
        (h.tagged _ (Nat.zero_lt_of_lt hlo) hhi) rfl
      exact ⟨b :: q, j, follow_cons_eq_some.mpr ⟨hc, hq⟩, hj⟩

/-- A move succeeds exactly when the child is there, and emits exactly at a leaf (R112). -/
theorem tstep_eq_ok {t : List (Nat × Node)} {cur nxt : NodeIdx} {b : Bool} {oc : Option Ch} :
    tstep t cur b = .ok (nxt, oc) ↔ (nodeAt t cur).child b ≠ 0 ∧
      ((nodeAt t ((nodeAt t cur).child b)).tag = .leaf ∧ nxt = 0 ∧
          oc = some (nodeAt t ((nodeAt t cur).child b)).ch ∨
        (nodeAt t ((nodeAt t cur).child b)).tag ≠ .leaf ∧ nxt = (nodeAt t cur).child b ∧ oc = none) := by
  unfold tstep
  simp only
  split_ifs with hz hleaf
  · simp [hz]
  · rw [and_iff_right hz]
    simp [hleaf, eq_comm (b := nxt), eq_comm (b := oc)]
  · rw [and_iff_right hz]
    simp [hleaf, eq_comm (b := nxt), eq_comm (b := oc)]

theorem walk_cons_eq_ok {t : List (Nat × Node)} {cur last : NodeIdx} {b : Bool} {bs : List Bool} {out : List Ch} :
    walk t cur (b :: bs) = .ok (last, out) ↔ ∃ nxt oc rest, tstep t cur b = .ok (nxt, oc) ∧
      walk t nxt bs = .ok (last, rest) ∧ out = oc.toList ++ rest := by
  rw [walk_cons]
  rcases tstep t cur b with c | ⟨nxt, oc⟩
  · simp
  · rcases hw : walk t nxt bs with c | ⟨last', rest⟩
    · simp [hw]
    · simp [hw, eq_comm]

/-! Paths and codes (R26 (c), (e)) -/

/-- The path to a leaf is the code of its character. -/
theorem Inv.codeBits_of_leaf (h : Inv s) {p : List Bool} {i : NodeIdx} (hp : follow s.node 0 p = some i)
    (hi : (nodeAt s.node i).tag = .leaf) :
    (clutAt s.clut (nodeAt s.node i).ch).valid = true ∧ codeBits (clutAt s.clut (nodeAt s.node i).ch) = p := by
  have hvalid := h.codes.codeOf i hi
  obtain ⟨j, hcode, hj⟩ := h.codes.leafOf _ hvalid
  have hij : i = j := h.codes.oneLeaf i j hi (by rw [hj]) (by rw [hj])
  exact ⟨hvalid, h.tree.follow_unique (hij ▸ hcode) hp⟩

section
variable (hs : Inv s) (ht : Inv t) (hclut : ∀ c, clutAt s.clut c = clutAt t.clut c)
include hs ht hclut

/-- A path to a leaf leads to the leaf of the same character in every tree of the same code table. -/
theorem Inv.leaf_of_sameTable {p : List Bool} {i : NodeIdx} (hp : follow s.node 0 p = some i)
    (hi : (nodeAt s.node i).tag = .leaf) :
    ∃ j, follow t.node 0 p = some j ∧ nodeAt t.node j = ⟨.leaf, (nodeAt s.node i).ch, 0, 0⟩ := by
  obtain ⟨hvalid, rfl⟩ := hs.codeBits_of_leaf hp hi
  rw [hclut] at hvalid ⊢
  exact ht.codes.leafOf _ hvalid

/-- A path of one tree is a path of every tree of the same code table: it leads on to a leaf (R43). -/
theorem Inv.follow_of_sameTable {p : List Bool} {i : NodeIdx} (hp : follow s.node 0 p = some i) :
    ∃ j, follow t.node 0 p = some j := by
  by_cases hnil : p = []
  · exact ⟨0, by rw [hnil]; rfl⟩
  · obtain ⟨q, k, hq, hk⟩ := hs.tree.exists_leaf_below i (hs.tree.tag_follow hp hnil)
    obtain ⟨j, hj, -⟩ := hs.leaf_of_sameTable ht hclut (follow_append hp hq) hk
    exact follow_of_append hj

/-- A move from the end of a path, in the tree of one state, is a move from the end of that path in the other: the same
character is emitted, and both moves end at the end of one path (R43, R112). -/
theorem Inv.tstep_of_sameTable {p : List Bool} {i j nxt : NodeIdx} {b : Bool} {oc : Option Ch}
    (hi : follow s.node 0 p = some i) (hj : follow t.node 0 p = some j) (hstep : tstep s.node i b = .ok (nxt, oc)) :
    ∃ nxt' p', tstep t.node j b = .ok (nxt', oc) ∧ follow s.node 0 p' = some nxt ∧
      follow t.node 0 p' = some nxt' := by
  obtain ⟨hc, hend⟩ := tstep_eq_ok.mp hstep
  have hic := follow_snoc_eq_some.mpr ⟨i, hi, rfl, hc⟩
  obtain ⟨k, hk⟩ := hs.follow_of_sameTable ht hclut hic
  obtain ⟨j', hj', rfl, hc'⟩ := follow_snoc_eq_some.mp hk
  cases hj'.symm.trans hj
  rcases hend with ⟨hleaf, rfl, rfl⟩ | ⟨hopen, rfl, rfl⟩
  · obtain ⟨l, hl, hnode⟩ := hs.leaf_of_sameTable ht hclut hic hleaf
    cases hk.symm.trans hl
    exact ⟨0, [], tstep_eq_ok.mpr ⟨hc', Or.inl ⟨by rw [hnode], rfl, by rw [hnode]⟩⟩, rfl, rfl⟩
  · have hopen' : (nodeAt t.node ((nodeAt t.node j).child b)).tag ≠ .leaf := by
      intro hleaf
      obtain ⟨l, hl, hnode⟩ := ht.leaf_of_sameTable hs (fun c => (hclut c).symm) hk hleaf
      cases hic.symm.trans hl
      exact hopen (by rw [hnode])
    exact ⟨_, p ++ [b], tstep_eq_ok.mpr ⟨hc', Or.inr ⟨hopen', rfl, rfl⟩⟩, hic, hk⟩

/-- A walk from the end of a path, in the tree of one state, is a walk from the end of that path in the other: the
same characters are emitted and the root is reached by the same bits (R43, R112). -/
theorem Inv.walk_of_sameTable {bits p : List Bool} {i j last : NodeIdx} {out : List Ch}
    (hi : follow s.node 0 p = some i) (hj : follow t.node 0 p = some j)
    (hw : walk s.node i bits = .ok (last, out)) :
    ∃ last', walk t.node j bits = .ok (last', out) ∧ (last = 0 ↔ last' = 0) := by
  induction bits generalizing p i j out with
  | nil =>
    cases hw
    refine ⟨j, rfl, ?_, ?_⟩
    · rintro rfl
      cases hs.tree.follow_unique hi (q := []) rfl
      cases hj
      rfl
    · rintro rfl
      cases ht.tree.follow_unique hj (q := []) rfl
      cases hi
      rfl
  | cons b bits ih =>
    obtain ⟨nxt, oc, rest, hstep, hrest, rfl⟩ := walk_cons_eq_ok.mp hw
    obtain ⟨nxt', p', hstep', hi', hj'⟩ := hs.tstep_of_sameTable ht hclut hi hj hstep
    obtain ⟨last', hrest', hroot⟩ := ih hi' hj' hrest
    exact ⟨last', walk_cons_eq_ok.mpr ⟨nxt', oc, rest, hstep', hrest', rfl⟩, hroot⟩

end

/-- Settles O54: both trees have the paths and the leaves that the code table gives; a walk fails only with
InvalidPath, and in both trees or in neither. -/
theorem decodingDependsOnTheCodeTableAlone : Obligations.DecodingDependsOnTheCodeTableAlone := by
  unfold Obligations.DecodingDependsOnTheCodeTableAlone
  intro s t bits hs ht hclut
  refine ⟨fun last out hw => hs.walk_of_sameTable ht hclut (p := []) rfl rfl hw, fun c hw => ?_⟩
  cases hw' : walk t.node 0 bits with
  | error c' => rw [walk_error hw, walk_error hw']
  | ok r =>
    obtain ⟨last, hok, -⟩ := ht.walk_of_sameTable hs (fun c => (hclut c).symm) (p := []) rfl rfl hw'
    cases hw.symm.trans hok

end Sys2Proof.Machine
end

section
/-! SUPPORT. Encoding: the fields of the word of a command, decoding it again, and the rows of the match and mask table
(spec rules R60 to R66). -/

namespace Sys2Proof

/-! The fields of a word in format C (R60) -/

section
variable (op a : BitVec 4) (b : BitVec 8) (c : BitVec 16)

@[simp] theorem opField_formatC : opField (formatC op a b c) = op := by
  apply BitVec.eq_of_getLsbD_eq
  intro k hk
  interval_cases k <;> simp [opField, formatC]

@[simp] theorem countField_formatC : countField (formatC op a b c) = a := by
  apply BitVec.eq_of_getLsbD_eq
  intro k hk
  interval_cases k <;> simp [countField, formatC]

@[simp] theorem byteField_formatC : byteField (formatC op a b c) = b := by
  apply BitVec.eq_of_getLsbD_eq
  intro k hk
  interval_cases k <;> simp [byteField, formatC]

@[simp] theorem lowField_formatC : lowField (formatC op a b c) = c := by
  apply BitVec.eq_of_getLsbD_eq
  intro k hk
  interval_cases k <;> simp [lowField, formatC]

end

/-- The low half holds the 16 low bits of the word (R60). -/
theorem getLsbD_lowField (w : Word) {k : Nat} (hk : k < 16) : (lowField w).getLsbD k = w.getLsbD k := by
  simp [lowField, hk]

/-- LDC's code is the low half without bit 15 (R63). -/
theorem codeField_eq_lowField (w : Word) : codeField w = (lowField w).setWidth 15 := by
  apply BitVec.eq_of_getLsbD_eq
  intro k hk
  simp [codeField, lowField, hk, Nat.lt_succ_of_lt hk]

/-- The bits of DECBIT's low half above its bit (R64). -/
theorem lowField_shiftRight_one (w : Word) : lowField w >>> 1 = (w.extractLsb' 1 15).setWidth 16 := by
  apply BitVec.eq_of_getLsbD_eq
  intro k hk
  have hlt : 1 + k < 16 ↔ k < 15 := by omega
  simp [lowField, hk, hlt]

section
variable (len : CodeLen) (ch : Ch) (code : CodeBits)

@[simp] theorem countField_encode_ldc : countField (encode (.ldc len ch code)) = len := countField_formatC ..

@[simp] theorem byteField_encode_ldc : byteField (encode (.ldc len ch code)) = ch := byteField_formatC ..

@[simp] theorem codeField_encode_ldc : codeField (encode (.ldc len ch code)) = code := by
  rw [codeField_eq_lowField, encode, lowField_formatC]
  simp

@[simp] theorem bit15_encode_ldc : (encode (.ldc len ch code))[15] = false := by
  rw [← BitVec.getLsbD_eq_getElem, ← getLsbD_lowField _ (by decide), encode, lowField_formatC]
  simp

end

@[simp] theorem countField_encode_decb (n : BitVec 4) (g : Byte) : countField (encode (.decb n g)) = n :=
  countField_formatC ..

/-! Decoding after encoding (R65) -/

theorem decodeLdc_encode {len : CodeLen} {ch : Ch} {code : CodeBits} (h : (Instr.ldc len ch code).WellFormed) :
    decodeLdc (encode (.ldc len ch code)) = .ok (.ldc len ch code) := by
  simp [decodeLdc, wellFormed_ldc.mp h]

theorem decodeEnc_encode (ch : Ch) : decodeEnc (encode (.enc ch)) = .ok (.enc ch) := by
  simp [decodeEnc, encode]

theorem decodeDecb_encode {n : BitVec 4} {g : Byte} (h : (Instr.decb n g).WellFormed) :
    decodeDecb (encode (.decb n g)) = .ok (.decb n g) := by
  simp [decodeDecb, encode, wellFormed_decb.mp h]

/-- The word of a well-formed command is that command: the opcode selects its row, the fields are its operands. -/
theorem decode_encode {i : Instr} (hi : i.WellFormed) : decode (encode i) = .ok i := by
  cases i with
  | reset | tclr | tfin | eflush | trst => rfl
  | ldc len ch code =>
    rw [decode, encode, opField_formatC]
    exact decodeLdc_encode hi
  | enc ch =>
    rw [decode, encode, opField_formatC]
    exact decodeEnc_encode ch
  | decbit bit => cases bit <;> rfl
  | decb n g =>
    rw [decode, encode, opField_formatC]
    exact decodeDecb_encode hi

/-- Settles O1: the fields of format C are disjoint, so the decoder reads back the opcode and every operand, and its
checks are those of a well-formed command. -/
theorem decodeOfEncodeIsTheCommand : Obligations.DecodeOfEncodeIsTheCommand := by
  unfold Obligations.DecodeOfEncodeIsTheCommand
  exact fun _ hi => decode_encode hi

/-- Settles O2: a word is its four fields, and the decoder accepts it only where the fields it does not keep are 0. -/
theorem legalWordIsItsCommandsEncoding : Obligations.LegalWordIsItsCommandsEncoding := by
  unfold Obligations.LegalWordIsItsCommandsEncoding
  exact fun _ _ h => encode_of_decode h

/-! The match and mask table (R65) -/

/-- Where the mask keeps a field whole, the word has the match's field. -/
theorem extractLsb'_of_masked {w mask word : Word} {start len : Nat} (h : w &&& mask = word)
    (hmask : mask.extractLsb' start len = BitVec.allOnes len) :
    w.extractLsb' start len = word.extractLsb' start len := by
  rw [← h, BitVec.extractLsb'_and, hmask, BitVec.and_allOnes]

/-- A row without operands holds its match alone. -/
theorem eq_of_masked_allOnes {w word : Word} (h : w &&& 0xFFFFFFFF = word) : w = word :=
  (BitVec.and_allOnes).symm.trans h

/-! A word in a row with operands is the encoding of the row's command -/

theorem encode_of_ldcRow {w : Word} (h : w &&& 0xF0008000 = 0x30000000) :
    encode (.ldc (countField w) (byteField w) (codeField w)) = w := by
  have h15 : w.extractLsb' 15 1 = 0 := extractLsb'_of_masked h rfl
  exact formatC_eq (extractLsb'_of_masked h rfl) rfl rfl
    (lowField_of_bit15 (by simpa using congrArg (fun x => x.getLsbD 0) h15))

theorem encode_of_encRow {w : Word} (h : w &&& 0xFF00FFFF = 0x50000000) : encode (.enc (byteField w)) = w :=
  formatC_eq (extractLsb'_of_masked h rfl) (extractLsb'_of_masked h rfl) rfl (extractLsb'_of_masked h rfl)

theorem encode_of_decbitRow {w : Word} (h : w &&& 0xFFFFFFFE = 0x70000000) :
    encode (.decbit (w.getLsbD 0)) = w := by
  have hhigh : lowField w >>> 1 = 0 := by
    rw [lowField_shiftRight_one, extractLsb'_of_masked h rfl]
    rfl
  exact formatC_eq (extractLsb'_of_masked h rfl) (extractLsb'_of_masked h rfl) (extractLsb'_of_masked h rfl)
    (lowField_of_high_zero hhigh)

theorem encode_of_decbRow {w : Word} (h : w &&& 0xF000FFFF = 0x80000000) :
    encode (.decb (countField w) (byteField w)) = w :=
  formatC_eq (extractLsb'_of_masked h rfl) rfl rfl (extractLsb'_of_masked h rfl)

theorem decode_of_encode_eq {w : Word} {i : Instr} (h : encode i = w) (hi : i.WellFormed) : decode w = .ok i :=
  h ▸ decode_encode hi

/-- Settles O3: in its row a word is the encoding of the row's command, and a word that decodes is one that lies in a
row, that of the command it decodes to. -/
theorem decodingFollowsTheMatchMaskTable : Obligations.DecodingFollowsTheMatchMaskTable := by
  unfold Obligations.DecodingFollowsTheMatchMaskTable
  intro w
  refine ⟨?reset, ?tclr, ?ldc, ?tfin, ?enc, ?eflush, ?decbit, ?decb, ?trst, ?illegal⟩
  case reset | tclr | tfin | eflush | trst =>
    intro h
    rw [eq_of_masked_allOnes h]
    rfl
  case ldc => exact fun ⟨h, hfit⟩ => decode_of_encode_eq (encode_of_ldcRow h) (wellFormed_ldc.mpr hfit)
  case enc => exact fun h => decode_of_encode_eq (encode_of_encRow h) rfl
  case decbit => exact fun h => decode_of_encode_eq (encode_of_decbitRow h) rfl
  case decb => exact fun ⟨h, hn⟩ => decode_of_encode_eq (encode_of_decbRow h) (wellFormed_decb.mpr hn)
  case illegal =>
    intro hreset htclr hldc htfin henc heflush hdecbit hdecb htrst
    cases hdec : decode w with
    | error e => exact ⟨e, rfl⟩
    | ok i =>
      exfalso
      obtain ⟨rfl, hi⟩ := encode_of_decode hdec
      cases i with
      | reset => exact hreset Laws.TableRow.reset
      | tclr => exact htclr Laws.TableRow.tclr
      | ldc len ch code =>
        have hfit : codeField (encode (.ldc len ch code)) >>> (countField (encode (.ldc len ch code))).toNat = 0 := by
          simpa using hi
        exact hldc ⟨Laws.TableRow.ldc len ch code, hfit⟩
      | tfin => exact htfin Laws.TableRow.tfin
      | enc ch => exact henc (Laws.TableRow.enc ch)
      | eflush => exact heflush Laws.TableRow.eflush
      | decbit bit => exact hdecbit (Laws.TableRow.decbit bit)
      | decb n g =>
        have hn : 1 ≤ (countField (encode (.decb n g))).toNat ∧ (countField (encode (.decb n g))).toNat ≤ 8 := by
          simpa using hi
        exact hdecb ⟨Laws.TableRow.decb n g, hn⟩
      | trst => exact htrst Laws.TableRow.trst

/-- Settles O4, by evaluating the decoder on each word. -/
theorem sampleWordsDecodeAsTheSpecLists : Obligations.SampleWordsDecodeAsTheSpecLists := by
  unfold Obligations.SampleWordsDecodeAsTheSpecLists
  decide

end Sys2Proof
end

section
/-! SUPPORT. Words and commands issued one after the other: illegal words, the words of commands, an assembled LDC, and
the load of a table (spec rules R65 to R68, R81, R82, R92, R94, R143, R150). -/

namespace Sys2Proof.Machine

/-! Issuing words (R143) -/

/-- Settles O10: an illegal word is rejected, which is fault entry where no fault is recorded. -/
theorem illegalWordFaults : Obligations.IllegalWordFaults := by
  unfold Obligations.IllegalWordFaults
  intro s w rest e hin herr hdec
  rw [step, takeMove_cons hin, perform, issue, hdec]
  simp [rejectWord, herr, faultEntry, Cause.code]

/-- The word of a well-formed command is issued as the command (R65). -/
theorem issue_encode {i : Instr} (hi : i.WellFormed) (s : State) : issue (encode i) s = exec i s := by
  rw [issue, decode_encode hi]

/-- Settles O56, by induction on the commands: the word of each is decoded to it. -/
theorem issuingEncodedCommandsExecutesThem : Obligations.IssuingEncodedCommandsExecutesThem := by
  unfold Obligations.IssuingEncodedCommandsExecutesThem
  intro s cmds hwf
  induction cmds generalizing s with
  | nil => rfl
  | cons i cmds ih =>
    obtain ⟨hi, hcmds⟩ := List.forall_mem_cons.mp hwf
    obtain ⟨t, ht⟩ := exec_next i s
    rw [List.map_cons, issueAll, execAll, issue_encode hi, ht]
    exact ih t hcmds

/-! The assembler's LDC (R63, R67) -/

/-- A bit-string's value has no bit at or above its length. -/
theorem bitsValue_div (bs : List Bool) : bitsValue bs / 2 ^ bs.length = 0 := foldl_bits_div bs 0

theorem assembleLdc_eq_some {c : Ch} {bs : List Bool} {i : Instr} : assembleLdc c bs = some i ↔
    bs.length ≤ 15 ∧ .ldc (BitVec.ofNat 4 bs.length) c (BitVec.ofNat 15 (bitsValue bs)) = i :=
  Option.ite_none_right_eq_some.trans (and_congr_right' Option.some_inj)

/-- The assembler's LDC is well-formed: the value has no bit beyond the length (R63). -/
theorem wellFormed_of_assembleLdc {c : Ch} {bs : List Bool} {i : Instr} (h : assembleLdc c bs = some i) :
    i.WellFormed := by
  obtain ⟨hbs, rfl⟩ := assembleLdc_eq_some.mp h
  rw [wellFormed_ldc, BitVec.toNat_ofNat, Nat.mod_eq_of_lt (Nat.lt_succ_of_le hbs)]
  apply BitVec.eq_of_toNat_eq
  rw [BitVec.toNat_ushiftRight, BitVec.toNat_ofNat, Nat.shiftRight_eq_div_pow]
  exact Nat.le_zero.mp ((Nat.div_le_div_right (Nat.mod_le _ _)).trans_eq (bitsValue_div bs))

/-- Settles O5: the operands spell the bit-string, and the value of a bit-string has no bit beyond its length. -/
theorem assembledPairCarriesItsBitString : Obligations.AssembledPairCarriesItsBitString := by
  unfold Obligations.AssembledPairCarriesItsBitString
  intro c bs hbs
  obtain ⟨len, code, hasm, hlen, hpath⟩ := assembleLdc_eq (c := c) hbs
  exact ⟨len, code, hasm, hlen, hpath, wellFormed_of_assembleLdc hasm⟩

/-! Commands after a fault (R143 step 1) -/

theorem exec_of_err {i : Instr} {s : State} (hi : i ≠ .reset) (herr : s.err = true) : exec i s = .next s := by
  rw [exec_eq_runCommand, runCommand, (phase_faulted s).mpr herr, disposition_faulted, if_neg hi]

theorem execAll_of_err {cmds : List Instr} {s : State} (hcmds : .reset ∉ cmds) (herr : s.err = true) :
    execAll cmds s = .next s := by
  induction cmds with
  | nil => rfl
  | cons i cmds ih =>
    obtain ⟨hi, hcmds⟩ := List.ne_and_not_mem_of_not_mem_cons hcmds
    rw [execAll, exec_of_err hi.symm herr]
    exact ih hcmds

/-- Where commands without RESET end without a fault, there was none before. -/
theorem err_eq_false_of_execAll {cmds : List Instr} {s t : State} (hcmds : .reset ∉ cmds)
    (h : execAll cmds s = .next t) (ht : t.err = false) : s.err = false := by
  by_contra herr
  rw [execAll_of_err hcmds (eq_true_of_ne_false herr)] at h
  cases h
  exact herr ht

theorem execAll_cons_eq_next {i : Instr} {cmds : List Instr} {s t : State} :
    execAll (i :: cmds) s = .next t ↔ ∃ u, exec i s = .next u ∧ execAll cmds u = .next t := by
  obtain ⟨u, hu⟩ := exec_next i s
  simp [execAll, hu]

theorem execAll_append_eq_next {cmds cmds' : List Instr} {s t : State} :
    execAll (cmds ++ cmds') s = .next t ↔ ∃ u, execAll cmds s = .next u ∧ execAll cmds' u = .next t := by
  induction cmds generalizing s with
  | nil => simp [execAll]
  | cons i cmds ih =>
    obtain ⟨u, hu⟩ := exec_next i s
    simp [execAll, hu, ih]

/-! The commands of a table (R68) -/

theorem loadPairs_cons_eq_some {c : Ch} {bs : List Bool} {rest : List (Ch × List Bool)} {cmds : List Instr} :
    loadPairs ((c, bs) :: rest) = some cmds ↔
      ∃ i is, assembleLdc c bs = some i ∧ loadPairs rest = some is ∧ i :: is = cmds := by
  rw [loadPairs]
  cases assembleLdc c bs <;> cases loadPairs rest <;> simp

theorem ldtab_eq_some {table : List (Ch × List Bool)} {cmds : List Instr} :
    ldtab table = some cmds ↔ ∃ is, loadPairs table = some is ∧ .tclr :: (is ++ [.tfin]) = cmds := by
  rw [ldtab]
  cases loadPairs table <;> simp

/-- An assembled LDC is an LDC of its character whose operands spell the bit-string. -/
theorem of_assembleLdc_eq_some {c : Ch} {bs : List Bool} {i : Instr} (h : assembleLdc c bs = some i) :
    ∃ len code, i = .ldc len c code ∧ pathBits len.toNat code = bs := by
  obtain ⟨len, code, hasm, -, hpath⟩ := assembleLdc_eq (c := c) (assembleLdc_eq_some.mp h).1
  exact ⟨len, code, Option.some.inj (h.symm.trans hasm), hpath⟩

theorem reset_not_mem_loadPairs {table : List (Ch × List Bool)} {cmds : List Instr} (h : loadPairs table = some cmds) :
    .reset ∉ cmds := by
  induction table generalizing cmds with
  | nil => cases h; simp
  | cons e rest ih =>
    obtain ⟨i, is, hasm, hrest, rfl⟩ := loadPairs_cons_eq_some.mp h
    obtain ⟨len, code, rfl, -⟩ := of_assembleLdc_eq_some hasm
    simp [ih hrest]

/-! The load of a table (R94) -/

/-- TCLR makes a state with all of R26 wherever the fault registers are sound (R81). -/
theorem inv_clearTable {s : State} (hf : FaultInv s) : Inv (clearTable s) where
  memory := reset_memory_wf
  entries := entryInv_of_nil rfl
  packer := packerInv_of_zero rfl rfl rfl fun _ => rfl
  faults := kept_faultInv.tclr hf
  tree := treeInv_of_nil rfl rfl rfl rfl
  codes := codeInv_of_nil rfl rfl

theorem Inv.exec {i : Instr} {s t : State} (h : Inv s) (hi : i.WellFormed) (hexec : exec i s = .next t) : Inv t where
  memory := kept_memory_wf.exec hi h.memory hexec
  entries := kept_entryInv.exec hi h.entries hexec
  packer := (kept_packerInv.exec hi ⟨h.entries, h.packer⟩ hexec).2
  faults := kept_faultInv.exec hi h.faults hexec
  tree := kept_treeInv.exec hi h.tree hexec
  codes := (kept_codeInv.exec hi ⟨h.tree, h.codes⟩ hexec).2

/-- What LDCs that end without a fault do to `s` when they load `pairs`: the pairs are added to the code table, and
R26, the streams and the codes loaded before are kept. -/
structure Loads (pairs : List (Ch × List Bool)) (s t : State) : Prop where
  inv : Inv t
  outb : t.outb = s.outb
  outc : t.outc = s.outc
  added : ∀ c bs, (c, bs) ∈ pairs → (clutAt t.clut c).valid = true ∧ codeBits (clutAt t.clut c) = bs
  kept : ∀ c, (clutAt s.clut c).valid = true → clutAt t.clut c = clutAt s.clut c
  only : ∀ c, (clutAt t.clut c).valid = true → (clutAt s.clut c).valid = true ∨ ∃ bs, (c, bs) ∈ pairs

/-- One LDC that succeeds, before the LDCs of the other pairs. -/
theorem Loads.cons {c : Ch} {bs : List Bool} {rest : List (Ch × List Bool)} {len : CodeLen} {code : CodeBits}
    {s t u : State} (hr : loadPair len c code s = .ok u) (hpath : pathBits len.toNat code = bs) (h : Loads rest u t) :
    Loads ((c, bs) :: rest) s t := by
  obtain ⟨-, hfree, -⟩ := loadPair_ok_iff.mp hr
  have hframe := loadPair_frame hr
  have hclut := loadPair_clutAt hr
  have hnew : clutAt t.clut c = ⟨true, len, code⟩ := by
    rw [h.kept c (by simp [hclut]), hclut, if_pos rfl]
  constructor
  case inv => exact h.inv
  case outb => rw [h.outb, hframe]
  case outc => rw [h.outc, hframe]
  case added =>
    intro d ds hmem
    rcases List.mem_cons.mp hmem with heq | hmem
    · cases heq
      exact ⟨by rw [hnew], by rw [hnew]; exact hpath⟩
    · exact h.added d ds hmem
  case kept =>
    intro d hd
    have hne : d ≠ c := by
      rintro rfl
      exact absurd hd (by simp [hfree])
    have hu : clutAt u.clut d = clutAt s.clut d := by rw [hclut, if_neg hne]
    rw [h.kept d (by rwa [hu]), hu]
  case only =>
    intro d hd
    by_cases hdc : d = c
    · exact Or.inr ⟨bs, by simp [hdc]⟩
    · rcases h.only d hd with hu | ⟨ds, hmem⟩
      · exact Or.inl (by rwa [hclut, if_neg hdc] at hu)
      · exact Or.inr ⟨ds, List.mem_cons_of_mem _ hmem⟩

/-- LDCs that end without a fault are LDCs each of which succeeds: after a fault no later one clears ERR. -/
theorem loads_of_execAll {pairs : List (Ch × List Bool)} {cmds : List Instr} {s t : State}
    (hcmds : loadPairs pairs = some cmds) (hs : Inv s) (h : execAll cmds s = .next t) (ht : t.err = false) :
    Loads pairs s t := by
  induction pairs generalizing cmds s with
  | nil =>
    cases hcmds
    cases h
    exact ⟨hs, rfl, rfl, nofun, fun _ _ => rfl, fun _ => Or.inl⟩
  | cons e rest ih =>
    have herr := err_eq_false_of_execAll (reset_not_mem_loadPairs hcmds) h ht
    obtain ⟨i, is, hasm, hrest, rfl⟩ := loadPairs_cons_eq_some.mp hcmds
    obtain ⟨u, hexec, hrun⟩ := execAll_cons_eq_next.mp h
    have huerr := err_eq_false_of_execAll (reset_not_mem_loadPairs hrest) hrun ht
    have hu := hs.exec (wellFormed_of_assembleLdc hasm) hexec
    obtain ⟨len, code, rfl, hpath⟩ := of_assembleLdc_eq_some hasm
    exact (ih hrest hu hrun).cons (ruleOf_ok_of_exec hexec herr huerr).2 hpath

/-- Settles O53: TCLR leads to R26 with nothing loaded, each LDC adds its pair, and TFIN, which executes in LOADING
only, where no session is open, makes the table READY at the root. -/
theorem loadedTableIsTheGivenTable : Obligations.LoadedTableIsTheGivenTable := by
  unfold Obligations.LoadedTableIsTheGivenTable
  intro s t table cmds hf herr hcmds hrun ht
  obtain ⟨is, his, rfl⟩ := ldtab_eq_some.mp hcmds
  rw [execAll, exec_tclr herr] at hrun
  obtain ⟨u, hload, hfin⟩ := execAll_append_eq_next.mp hrun
  have huerr := err_eq_false_of_execAll (by simp) hfin ht
  have hu := loads_of_execAll his (inv_clearTable hf) hload huerr
  obtain ⟨t', hexec, hnil⟩ := execAll_cons_eq_next.mp hfin
  cases hnil
  obtain ⟨hd, hrule⟩ := ruleOf_ok_of_exec hexec huerr ht
  obtain ⟨-, -, hpsym, -⟩ := hu.inv.packer.loadingZero ((executes_tfin _).mp hd)
  have hinv := hu.inv.exec rfl hexec
  obtain ⟨-, rfl⟩ := finishTable_ok_iff.mp hrule
  refine ⟨hinv, rfl, rfl, hpsym, hu.outb, hu.outc, hu.added, fun c hc => ?_⟩
  exact (hu.only c hc).resolve_left (by simp [noCode])

end Sys2Proof.Machine
end

section
/-! SUPPORT. The control commands RESET, TCLR, TFIN and TRST, and what a step does with a word of RESET's opcode that is
not RESET (spec rules R80 to R83, R143 to R145, R150). -/

namespace Sys2Proof

/-- No word but 0x10000000 is a command of opcode 1 (R61, R80). -/
theorem decode_error_of_opField_one {w : Word} (hop : opField w = 1) (hw : w ≠ 0x10000000) :
    ∃ e, decode w = .error e := by
  cases hdec : decode w with
  | error e => exact ⟨e, rfl⟩
  | ok i =>
    obtain ⟨rfl, -⟩ := encode_of_decode hdec
    cases i with
    | reset => exact absurd rfl hw
    | _ => simp [encode] at hop

end Sys2Proof

namespace Sys2Proof.Machine

variable {s : State}

/-- A command that executes and whose rule raises a fault records it and changes nothing else (R149, R150). -/
theorem exec_of_ruleOf_error {i : Instr} {c : Cause} (hd : disposition i s.phase = .executes)
    (hr : ruleOf i s = .error c) : exec i s = .next (recordFault c.code (encode i) s) := by
  rw [exec_eq_runCommand]
  exact runCommand_error hd hr

/-- A command the acceptance table refuses records SequenceError and changes nothing else (R145, R150). -/
theorem exec_of_sequenceError {i : Instr} (hd : disposition i s.phase = .sequenceError) :
    exec i s = .next (recordFault 5 (encode i) s) := by
  rw [exec_eq_runCommand, runCommand, hd]
  rfl

/-- TFIN refuses an empty table (R82). -/
theorem finishTable_of_empty (hempty : (nodeAt s.node 0).tag = .empty) :
    finishTable s = .error .invalidCodeTable := if_pos hempty

/-- RESET executes in every phase (R80, R145). -/
theorem exec_reset (s : State) : exec .reset s = .next (resetBlock s) :=
  exec_of_ruleOf_ok (by cases s.phase <;> rfl) rfl

/-- A step at an illegal word takes it off the pending moves and rejects it (R143). -/
theorem step_of_illegal {w : Word} {rest : List HostMove} {e : IllegalWord} (hin : s.input = .command w :: rest)
    (hdec : decode w = .error e) : step s = .next (rejectWord w { s with input := rest }) := by
  rw [step, takeMove_cons hin, perform, issue, hdec]

/-- Settles O37: an ignored command changes nothing, TFIN's rule writes TRDY and CUR alone, and TCLR, which raises no
fault, clears neither a stream nor a fault register. -/
theorem tableControlFrame : Obligations.TableControlFrame := by
  unfold Obligations.TableControlFrame
  refine fun s t => ⟨fun h => ?tfin, fun h => ?tclr⟩
  case tfin =>
    rcases exec_cases h with ⟨rfl, -⟩ | ⟨-, c, rfl⟩ | ⟨-, hr⟩
    · rfl
    · rfl
    · obtain ⟨-, rfl⟩ := finishTable_ok_iff.mp hr
      rfl
  case tclr =>
    cases herr : s.err with
    | true =>
      rw [exec_of_err (by decide) herr] at h
      cases h
      simp [herr]
    | false =>
      rw [exec_tclr herr] at h
      cases h
      simp [herr]

/-- Settles O7: RESET executes in every phase, and any other word of its opcode is illegal, which is a fault where none
is recorded and ignored otherwise. -/
theorem resetCommandResetsTheBlock : Obligations.ResetCommandResetsTheBlock := by
  unfold Obligations.ResetCommandResetsTheBlock
  refine ⟨exec_reset, fun s w rest hin hop hw => ?_⟩
  obtain ⟨e, hdec⟩ := decode_error_of_opField_one hop hw
  refine ⟨fun herr => illegalWordFaults s w rest e hin herr hdec, fun herr => ?_⟩
  rw [step_of_illegal hin hdec, rejectWord, if_pos herr]

/-- Settles O19: TCLR executes wherever no fault is recorded, and an entry that is not listed reads as cleared. -/
theorem tclrClearsTableTreeTraverserAndPacker : Obligations.TclrClearsTableTreeTraverserAndPacker := by
  unfold Obligations.TclrClearsTableTreeTraverserAndPacker
  exact fun s herr => ⟨exec_tclr herr, clutAt_nil, nodeAt_nil⟩

/-- Settles O20: in LOADING TFIN's rule runs and refuses exactly the empty table, in READY the acceptance table refuses
TFIN. -/
theorem tfinMakesTheTableReadyOrRefusesAnEmptyOne : Obligations.TfinMakesTheTableReadyOrRefusesAnEmptyOne := by
  unfold Obligations.TfinMakesTheTableReadyOrRefusesAnEmptyOne
  intro s herr
  have hexec (htrdy : s.trdy = false) : disposition .tfin s.phase = .executes :=
    (executes_tfin _).mpr ((phase_loading s).mpr ⟨herr, htrdy⟩)
  refine ⟨fun htrdy hne => ?nonempty, fun htrdy hempty => ?empty, fun htrdy => ?ready⟩
  case nonempty => exact exec_of_ruleOf_ok (hexec htrdy) (finishTable_ok_iff.mpr ⟨hne, rfl⟩)
  case empty => exact exec_of_ruleOf_error (hexec htrdy) (finishTable_of_empty hempty)
  case ready =>
    refine exec_of_sequenceError (i := .tfin) ?_
    rw [(phase_ready s).mpr ⟨herr, htrdy⟩]
    rfl

/-- Settles O21: TRST executes wherever no fault is recorded, and its rule writes CUR alone. -/
theorem trstReturnsTheTraverserToTheRoot : Obligations.TrstReturnsTheTraverserToTheRoot := by
  unfold Obligations.TrstReturnsTheTraverserToTheRoot
  exact fun _ herr => exec_trst herr

end Sys2Proof.Machine
end

section
/-! SUPPORT. What LDC accepts and refuses, and what it leaves unchanged: when each check of its rule fails, and that
phase 1 leaves the tree exactly on the codes that conflict with no loaded one (spec rules R90 to R92, R146, R149). -/

namespace Sys2Proof.Machine

variable {s t : State} {len : CodeLen} {ch : Ch} {code : CodeBits} {stop : NodeIdx} {b : Bool} {bs : List Bool}

/-! The faults of LDC's rule (R91, R92, R146) -/

/-- LDC raises InvalidCodeTable exactly on an empty code, a repeated character or a path that phase 1 does not leave
the tree on (R91). -/
theorem loadPair_invalidCodeTable_iff : loadPair len ch code s = .error .invalidCodeTable ↔
    len = 0 ∨ (clutAt s.clut ch).valid = true ∨
      ∀ stop b bs, descend s.node 0 (pathBits len.toNat code) ≠ .ok (stop, b :: bs) := by
  by_cases hlen : len = 0
  · simp [loadPair, hlen]
  by_cases hvalid : (clutAt s.clut ch).valid = true
  · simp [loadPair, hvalid]
  rw [loadPair, if_neg hlen, if_neg hvalid, or_iff_right hlen, or_iff_right hvalid]
  cases hdesc : descend s.node 0 (pathBits len.toNat code) with
  | error c => simp [descend_error hdesc]
  | ok p =>
    obtain ⟨stop, _ | ⟨b, bs⟩⟩ := p
    · simp
    · dsimp only
      split_ifs <;> simp

/-- LDC raises CapacityExceeded where every other check passes and the arena has too few records left (R92, R146). -/
theorem loadPair_of_full (hlen : len ≠ 0) (hvalid : (clutAt s.clut ch).valid = false)
    (hdesc : descend s.node 0 (pathBits len.toNat code) = .ok (stop, b :: bs))
    (hfull : 512 < s.nalloc.toNat + (b :: bs).length) : loadPair len ch code s = .error .capacityExceeded := by
  rw [loadPair, if_neg hlen, if_neg (by simp [hvalid]), hdesc]
  exact if_pos hfull

section
variable (herr : s.err = false) (htrdy : s.trdy = false)
include herr htrdy

/-- LDC executes in LOADING (R145). -/
theorem executes_ldc_of_loading : disposition (.ldc len ch code) s.phase = .executes :=
  (executes_ldc ..).mpr ((phase_loading s).mpr ⟨herr, htrdy⟩)

theorem exec_ldc_of_error {c : Cause} (hr : loadPair len ch code s = .error c) :
    exec (.ldc len ch code) s = .next (recordFault c.code (encode (.ldc len ch code)) s) :=
  exec_of_ruleOf_error (executes_ldc_of_loading herr htrdy) hr

end

/-- Settles O24: both are checks of LDC's rule that fail with InvalidCodeTable. -/
theorem ldcRejectsEmptyCodeAndRepeatedCharacter : Obligations.LdcRejectsEmptyCodeAndRepeatedCharacter := by
  unfold Obligations.LdcRejectsEmptyCodeAndRepeatedCharacter
  intro s len ch code herr htrdy hbad
  exact exec_ldc_of_error herr htrdy (loadPair_invalidCodeTable_iff.mpr (hbad.imp id Or.inl))

/-- Settles O27: the check of the arena's room is the last one of LDC's rule. -/
theorem ldcFaultsWhenTheArenaIsFull : Obligations.LdcFaultsWhenTheArenaIsFull := by
  unfold Obligations.LdcFaultsWhenTheArenaIsFull
  intro s len ch code stop b bs herr htrdy hlen hvalid hdesc hfull
  exact exec_ldc_of_error herr htrdy (loadPair_of_full hlen hvalid hdesc hfull)

/-! The codes that conflict (R91 (a), (b), (c)) -/

/-- Phase 1 fails at a leaf that the path reaches with bits left (R92). -/
theorem leaf_of_descend_error {t : List (Nat × Node)} {cur : NodeIdx} {bs : List Bool} {c : Cause}
    (h : descend t cur bs = .error c) :
    ∃ pre i, pre <+: bs ∧ follow t cur pre = some i ∧ (nodeAt t i).tag = .leaf := by
  induction bs generalizing cur with
  | nil => cases h
  | cons b bs ih =>
    unfold descend at h
    simp only at h
    split_ifs at h with hleaf hz
    · exact ⟨[], cur, List.nil_prefix, rfl, hleaf⟩
    · obtain ⟨pre, i, hpre, hfollow, hi⟩ := ih h
      exact ⟨b :: pre, i, List.cons_prefix_cons.mpr ⟨rfl, hpre⟩, follow_cons_eq_some.mpr ⟨hz, hfollow⟩, hi⟩

/-- Where a path to a leaf and a code conflict, the code conflicts with the loaded code of that leaf. -/
theorem Inv.conflict_of_leaf (h : Inv s) {p q : List Bool} {i : NodeIdx} (hp : follow s.node 0 p = some i)
    (hi : (nodeAt s.node i).tag = .leaf) (hc : Conflict p q) :
    ∃ d, (clutAt s.clut d).valid = true ∧ Conflict (codeBits (clutAt s.clut d)) q := by
  obtain ⟨hvalid, rfl⟩ := h.codeBits_of_leaf hp hi
  exact ⟨_, hvalid, hc⟩

/-- Phase 1 leaves the tree with bits left exactly on the paths that conflict with no loaded code: where it fails a
loaded code is a prefix, and where the whole path is in the tree it leads on to a leaf (R91). -/
theorem Inv.descend_stops_iff (h : Inv s) {path : List Bool} (hne : path ≠ []) :
    (∃ stop b bs, descend s.node 0 path = .ok (stop, b :: bs)) ↔
      ∀ d, (clutAt s.clut d).valid = true → ¬ Conflict (codeBits (clutAt s.clut d)) path := by
  constructor
  · rintro ⟨stop, b, bs, hdesc⟩ d hd
    obtain ⟨i, hfollow, hi⟩ := h.codes.leafOf d hd
    exact not_conflict_of_descend hdesc hfollow (by rw [hi])
  · intro hapart
    cases hdesc : descend s.node 0 path with
    | error c =>
      obtain ⟨pre, i, hpre, hfollow, hi⟩ := leaf_of_descend_error hdesc
      obtain ⟨d, hd, hc⟩ := h.conflict_of_leaf hfollow hi (Or.inl hpre)
      exact absurd hc (hapart d hd)
    | ok p =>
      obtain ⟨stop, _ | ⟨b, bs⟩⟩ := p
      · obtain ⟨pre, rfl, hfollow⟩ := follow_of_descend hdesc
        rw [List.append_nil] at hne hapart
        obtain ⟨q, i, hq, hi⟩ := h.tree.exists_leaf_below stop (h.tree.tag_follow hfollow hne)
        obtain ⟨d, hd, hc⟩ := h.conflict_of_leaf (follow_append hfollow hq) hi (Or.inr (List.prefix_append _ _))
        exact absurd hc (hapart d hd)
      · exact ⟨stop, b, bs, rfl⟩

theorem pathBits_ne_nil (hlen : len ≠ 0) (code : CodeBits) : pathBits len.toNat code ≠ [] := by
  intro hnil
  have hzero := congrArg List.length hnil
  rw [pathBits_length] at hzero
  exact hlen (BitVec.eq_of_toNat_eq hzero)

/-- Settles O25: phase 1 does not leave the tree on a code that conflicts with a loaded one, and an empty code is
refused before it. -/
theorem ldcRejectsEveryConflictingCode : Obligations.LdcRejectsEveryConflictingCode := by
  unfold Obligations.LdcRejectsEveryConflictingCode
  intro s len ch d code h herr htrdy hd hconf
  refine exec_ldc_of_error herr htrdy (loadPair_invalidCodeTable_iff.mpr ?_)
  by_cases hlen : len = 0
  · exact Or.inl hlen
  refine Or.inr (Or.inr fun stop b bs hdesc => ?_)
  exact (h.descend_stops_iff (pathBits_ne_nil hlen code)).mp ⟨stop, b, bs, hdesc⟩ d hd hconf

/-- Phase 1 leaves at most the bits of the path (R92). -/
theorem descend_length_le {t : List (Nat × Node)} {cur : NodeIdx} {path rest : List Bool}
    (h : descend t cur path = .ok (stop, rest)) : rest.length ≤ path.length := by
  obtain ⟨pre, rfl, -⟩ := follow_of_descend h
  simp

/-- LDC allocates at least one record and at most one per bit of its code (R18, R92). -/
theorem loadPair_nalloc (hr : loadPair len ch code s = .ok t) :
    s.nalloc.toNat < t.nalloc.toNat ∧ t.nalloc.toNat ≤ s.nalloc.toNat + len.toNat := by
  obtain ⟨-, -, stop, b, bs, hdesc, hroom, rfl⟩ := loadPair_ok_iff.mp hr
  have hbits := descend_length_le hdesc
  rw [pathBits_length, List.length_cons] at hbits
  rw [writeClut_nalloc, growPath_nalloc_toNat hroom, List.length_cons]
  omega

/-- Settles O26: phase 1 leaves the tree on a code that conflicts with no loaded one, with at most `len` bits left, so
no check of LDC's rule fails. -/
theorem ldcAcceptsEveryConflictFreePair : Obligations.LdcAcceptsEveryConflictFreePair := by
  unfold Obligations.LdcAcceptsEveryConflictFreePair
  intro s len ch code h herr htrdy hlen hvalid hapart hroom
  obtain ⟨stop, b, bs, hdesc⟩ := (h.descend_stops_iff (pathBits_ne_nil hlen code)).mpr hapart
  have hbits := descend_length_le hdesc
  rw [pathBits_length] at hbits
  have hr : loadPair len ch code s = .ok (writeClut ch ⟨true, len, code⟩ (growPath ch stop (b :: bs) s)) :=
    loadPair_ok_iff.mpr ⟨hlen, hvalid, stop, b, bs, hdesc, by omega, rfl⟩
  refine ⟨_, exec_of_ruleOf_ok (executes_ldc_of_loading herr htrdy) hr, ?_, ?_, loadPair_nalloc hr⟩
  · rw [loadPair_frame hr]
    exact herr
  · rw [loadPair_clutAt hr, if_pos rfl]

/-! Paths and the frame (R54, R90, R92) -/

/-- Settles O23: LDC breaks no link, and the records it makes are the rest of the path down to the leaf. -/
theorem ldcPutsTheLeafAtTheEndOfItsPath : Obligations.LdcPutsTheLeafAtTheEndOfItsPath := by
  unfold Obligations.LdcPutsTheLeafAtTheEndOfItsPath
  intro s t len ch code h herr hexec ht
  obtain ⟨-, hr⟩ := ruleOf_ok_of_exec hexec herr ht
  obtain ⟨last, hpath, hlast, -⟩ := h.newLeaf_loadPair hr
  exact ⟨⟨last, hpath, hlast⟩, fun p i hp => h.follow_loadPair hr hp⟩

/-- LDC writes no record in use but the one where its path leaves the tree, whose character it keeps, and none above
those it allocates (R92). -/
theorem loadPair_nodeAt (hr : loadPair len ch code s = .ok t) {rest : List Bool}
    (hdesc : descend s.node 0 (pathBits len.toNat code) = .ok (stop, rest)) {i : NodeIdx}
    (hi : i.toNat < s.nalloc.toNat ∨ s.nalloc.toNat + rest.length ≤ i.toNat) :
    (i ≠ stop → nodeAt t.node i = nodeAt s.node i) ∧ (nodeAt t.node i).ch = (nodeAt s.node i).ch := by
  obtain ⟨-, -, _, b, bs, hdesc', hroom, rfl⟩ := loadPair_ok_iff.mp hr
  cases hdesc.symm.trans hdesc'
  rw [writeClut_node, growPath_old hroom hi]
  split_ifs with heq
  · subst heq
    exact ⟨absurd rfl, ch_withChild ..⟩
  · exact ⟨fun _ => rfl, rfl⟩

/-- Settles O34: LDC that is ignored or faults writes the fault registers at most, and its rule writes the entry of its
character and the records of its path. -/
theorem ldcFrame : Obligations.LdcFrame := by
  unfold Obligations.LdcFrame
  intro s t len ch code h
  rcases exec_cases h with ⟨rfl, -⟩ | ⟨-, c, rfl⟩ | ⟨-, hr⟩
  · simp
  · simp [faultEntry]
  · refine ⟨?frame, fun d hd => ?clut, fun stop rest hdesc i hne hi => ?node, fun stop rest hdesc => ?ch,
      fun c hdesc => ?error⟩
    case frame => rw [loadPair_frame hr]
    case clut => rw [loadPair_clutAt hr, if_neg hd]
    case node => exact (loadPair_nodeAt hr hdesc hi).1 hne
    case ch =>
      refine (Nat.lt_or_ge stop.toNat s.nalloc.toNat).imp (fun hlt => ?_) id
      exact (loadPair_nodeAt hr hdesc (Or.inl hlt)).2
    case error =>
      obtain ⟨-, -, stop, b, bs, hok, -⟩ := loadPair_ok_iff.mp hr
      cases hdesc.symm.trans hok

end Sys2Proof.Machine
end

section
/-! SUPPORT. The pack commands: the faults of ENC and EFLUSH, the last group of a session, and a whole session (spec
rules R99 to R102, R145, R146, R156). -/

namespace Sys2Proof.Machine

variable {s : State} {ch : Ch} {text : List Ch}

/-! ENC (R100, R146, R156) -/

/-- The state after ENCs that pack the bits `bs`: the count goes on in an open session and begins anew otherwise
(R100). -/
def packSession (bs : List Bool) (s : State) : State :=
  { packBits bs s with pbits := BitVec.ofNat 32 (bitBase s + bs.length), psym := true }

@[simp] theorem packSession_clut (bs : List Bool) (s : State) : (packSession bs s).clut = s.clut := by
  rw [packSession, packBits_frame]

@[simp] theorem packSession_phase (bs : List Bool) (s : State) : (packSession bs s).phase = s.phase := by
  rw [packSession, packBits_frame]
  rfl

theorem bitBase_packSession {bs : List Bool} (hroom : bitBase s + bs.length ≤ 4294967295) :
    bitBase (packSession bs s) = bitBase s + bs.length := Nat.mod_eq_of_lt (Nat.lt_succ_of_le hroom)

/-- The packer's arithmetic reads and writes neither PBITS nor PSYM (R100). -/
theorem packBits_withSession (bs : List Bool) (s : State) (pbits : BitVec 32) (psym : Bool) :
    packBits bs { s with pbits := pbits, psym := psym } = { packBits bs s with pbits := pbits, psym := psym } := by
  induction bs generalizing s with
  | nil => rfl
  | cons b bs ih =>
    rw [packBits_cons, packBits_cons, ← ih]
    congr 1
    rw [packBit_eq, packBit_eq]
    split <;> rfl

theorem packSession_packSession {bs : List Bool} (hroom : bitBase s + bs.length ≤ 4294967295) (cs : List Bool) :
    packSession cs (packSession bs s) = packSession (bs ++ cs) s := by
  rw [packSession, bitBase_packSession hroom, packSession, packBits_withSession, packSession, packBits_append,
    List.length_append, Nat.add_assoc]

/-- ENC of a character with a code packs its bits while the count has room (R100). -/
theorem exec_enc (hready : s.phase = .ready) (hvalid : (clutAt s.clut ch).valid = true)
    (hroom : bitBase s + (codeBits (clutAt s.clut ch)).length ≤ 4294967295) :
    exec (.enc ch) s = .next (packSession (codeBits (clutAt s.clut ch)) s) := by
  refine exec_of_ruleOf_ok ((executes_enc ..).mpr hready) (packChar_ok_iff.mpr ⟨hvalid, ?_, ?_⟩)
  · rwa [codeBits_length] at hroom
  · rw [packSession, codeBits_length]

theorem packChar_of_missing (hvalid : (clutAt s.clut ch).valid = false) : packChar ch s = .error .missingCode :=
  if_pos hvalid

theorem packChar_of_full (hvalid : (clutAt s.clut ch).valid = true)
    (hfull : 4294967295 < bitBase s + (clutAt s.clut ch).len.toNat) : packChar ch s = .error .capacityExceeded := by
  rw [packChar, if_neg (by simp [hvalid])]
  exact if_pos hfull

/-- Settles O29: these are the two checks of ENC's rule. -/
theorem encFaultsOnMissingCodeOrFullCounter : Obligations.EncFaultsOnMissingCodeOrFullCounter := by
  unfold Obligations.EncFaultsOnMissingCodeOrFullCounter
  intro s ch herr htrdy
  have hexec : disposition (.enc ch) s.phase = .executes :=
    (executes_enc ..).mpr ((phase_ready s).mpr ⟨herr, htrdy⟩)
  exact ⟨fun hvalid => exec_of_ruleOf_error hexec (packChar_of_missing hvalid),
    fun hvalid hfull => exec_of_ruleOf_error hexec (packChar_of_full hvalid hfull)⟩

/-! EFLUSH (R101) -/

/-- The groups EFLUSH emits: the padded last one, or none where no bit is held (R101). -/
def lastGroups (s : State) : List Byte := if 0 < s.acnt.toNat then [paddedGroup s] else []

/-- The state after an EFLUSH that closes a session (R101). -/
def closeSession (s : State) : State :=
  { s with acc := 0, acnt := 0, psym := false, outb := s.outb ++ lastGroups s }

theorem lastGroups_of_ne_zero (hacnt : s.acnt ≠ 0) : lastGroups s = [paddedGroup s] :=
  if_pos (by bv_omega)

theorem lastGroups_of_zero (hacnt : s.acnt = 0) : lastGroups s = [] := by simp [lastGroups, hacnt]

theorem exec_eflush (hready : s.phase = .ready) (hopen : s.psym = true) :
    exec .eflush s = .next (closeSession s) := by
  refine exec_of_ruleOf_ok ((executes_eflush _).mpr hready) (flushPacker_ok_iff.mpr ⟨hopen, ?_⟩)
  rw [closeSession, lastGroups]
  split <;> simp

theorem flushPacker_of_closed (hclosed : s.psym = false) : flushPacker s = .error .invalidInput := if_pos hclosed

/-- Settles O30: in READY EFLUSH's rule runs and refuses exactly a closed session, in LOADING the acceptance table
refuses EFLUSH. -/
theorem eflushEmitsThePaddedGroupAndClosesTheSession : Obligations.EflushEmitsThePaddedGroupAndClosesTheSession := by
  unfold Obligations.EflushEmitsThePaddedGroupAndClosesTheSession
  intro s herr
  have hready (htrdy : s.trdy = true) : s.phase = .ready := (phase_ready s).mpr ⟨herr, htrdy⟩
  refine ⟨fun htrdy hopen hacnt => ?partialGroup, fun htrdy hopen hacnt => ?noGroup, fun htrdy hclosed => ?closed,
    fun htrdy => ?loading⟩
  case partialGroup => rw [exec_eflush (hready htrdy) hopen, closeSession, lastGroups_of_ne_zero hacnt, paddedGroup]
  case noGroup => rw [exec_eflush (hready htrdy) hopen, closeSession, lastGroups_of_zero hacnt, List.append_nil]
  case closed =>
    exact exec_of_ruleOf_error ((executes_eflush _).mpr (hready htrdy)) (flushPacker_of_closed hclosed)
  case loading =>
    refine exec_of_sequenceError (i := .eflush) ?_
    rw [(phase_loading s).mpr ⟨herr, htrdy⟩]
    rfl

/-! A pack session (R102) -/

theorem streamBits_length (groups : List Byte) : (streamBits groups).length = 8 * groups.length := by
  simp [streamBits, List.length_flatMap, Nat.mul_comm]

/-- Shifting a group left drops its first bits and appends zeros (R49). -/
theorem byteBits_shiftLeft (g : Byte) {n : Nat} (hn : n ≤ 8) :
    byteBits (g <<< n) = (byteBits g).drop n ++ List.replicate n false := by
  interval_cases n <;> simp [byteBits]

/-- EFLUSH emits the bits held, padded with zeros to a whole group (R101). -/
theorem streamBits_lastGroups (s : State) :
    streamBits (lastGroups s) = pendingBits s ++ List.replicate ((8 - s.acnt.toNat) % 8) false := by
  by_cases hacnt : s.acnt = 0
  · simp [lastGroups_of_zero hacnt, pendingBits, hacnt, streamBits]
  · have hpos : 0 < s.acnt.toNat := by bv_omega
    rw [lastGroups_of_ne_zero hacnt, streamBits_singleton, paddedGroup, byteBits_shiftLeft _ (Nat.sub_le ..),
      pendingBits, Nat.mod_eq_of_lt (by omega)]

theorem pendingBits_of_zero (hacnt : s.acnt = 0) : pendingBits s = [] := by
  simp [pendingBits, hacnt]

/-- Groups that hold `bs` and the padding that EFLUSH adds are as few as hold `bs` (R102). -/
theorem length_of_padded {groups : List Byte} {bs : List Bool}
    (h : streamBits groups = bs ++ List.replicate ((8 - bs.length % 8) % 8) false) :
    groups.length = (bs.length + 7) / 8 ∧ 8 * groups.length - bs.length = (8 - bs.length % 8) % 8 := by
  have hlen := congrArg List.length h
  rw [streamBits_length, List.length_append, List.length_replicate] at hlen
  omega

/-- The groups of a session that begins with no bit held are its bits, padded with zeros to whole groups (R102). -/
theorem closeSession_groups (bs : List Bool) (hacnt : s.acnt = 0) :
    ∃ groups, (closeSession (packSession bs s)).outb = s.outb ++ groups ∧ groups.length = (bs.length + 7) / 8 ∧
      streamBits groups = bs ++ List.replicate (8 * groups.length - bs.length) false := by
  obtain ⟨full, hfull⟩ := packBits_outb bs s
  have hheld : (packBits bs s).acnt.toNat = bs.length % 8 := by simp [packBits_acnt, hacnt]
  have hpacked : streamBits full ++ pendingBits (packBits bs s) = bs := by
    have hstream := packedBits_packBits bs s
    rwa [packedBits, packedBits, hfull, streamBits_append, pendingBits_of_zero hacnt, List.append_nil,
      List.append_assoc, List.append_cancel_left_eq] at hstream
  have hbits : streamBits (full ++ lastGroups (packBits bs s)) =
      bs ++ List.replicate ((8 - bs.length % 8) % 8) false := by
    rw [streamBits_append, streamBits_lastGroups, ← List.append_assoc, hpacked, hheld]
  obtain ⟨hlen, hpad⟩ := length_of_padded hbits
  refine ⟨full ++ lastGroups (packBits bs s), ?_, hlen, by rw [hpad, hbits]⟩
  rw [← List.append_assoc, ← hfull]
  rfl

@[simp] theorem messageBits_cons (s : State) (ch : Ch) (text : List Ch) :
    messageBits s (ch :: text) = codeBits (clutAt s.clut ch) ++ messageBits s text := List.flatMap_cons

/-- ENC of each character of a text packs the codes one after the other (R102). -/
theorem execAll_encs {bs : List Bool} (hready : s.phase = .ready)
    (hvalid : ∀ c ∈ text, (clutAt s.clut c).valid = true)
    (hroom : bitBase s + (bs ++ messageBits s text).length ≤ 4294967295) :
    execAll (encs text) (packSession bs s) = .next (packSession (bs ++ messageBits s text) s) := by
  induction text generalizing bs with
  | nil => simp [encs, execAll, messageBits]
  | cons c text ih =>
    obtain ⟨hc, htext⟩ := List.forall_mem_cons.mp hvalid
    rw [messageBits_cons, ← List.append_assoc] at hroom ⊢
    simp only [List.length_append] at hroom
    have hbs : bitBase s + bs.length ≤ 4294967295 := by omega
    have henc : exec (.enc c) (packSession bs s) = .next (packSession (bs ++ codeBits (clutAt s.clut c)) s) := by
      rw [exec_enc, packSession_packSession hbs, packSession_clut]
      · rwa [packSession_phase]
      · rwa [packSession_clut]
      · rw [packSession_clut, bitBase_packSession hbs]; omega
    refine execAll_cons_eq_next.mpr ⟨_, henc, ih htext ?_⟩
    simp only [List.length_append]
    omega

/-- A session of a text that is not empty packs the concatenated codes and closes (R102). -/
theorem execAll_encodeSession (hready : s.phase = .ready) (hne : text ≠ [])
    (hvalid : ∀ c ∈ text, (clutAt s.clut c).valid = true)
    (hroom : bitBase s + (messageBits s text).length ≤ 4294967295) :
    execAll (encodeSession text) s = .next (closeSession (packSession (messageBits s text) s)) := by
  obtain ⟨c, rest, rfl⟩ := List.exists_cons_of_ne_nil hne
  obtain ⟨hc, hrest⟩ := List.forall_mem_cons.mp hvalid
  rw [messageBits_cons] at hroom ⊢
  have hfirst : exec (.enc c) s = .next (packSession (codeBits (clutAt s.clut c)) s) :=
    exec_enc hready hc (by rw [List.length_append] at hroom; omega)
  have hencs := execAll_cons_eq_next.mpr ⟨_, hfirst, execAll_encs hready hrest hroom⟩
  refine execAll_append_eq_next.mpr ⟨_, hencs, ?_⟩
  exact execAll_cons_eq_next.mpr ⟨_, exec_eflush (by rwa [packSession_phase]) rfl, rfl⟩

/-- Settles O51: the session ends without a fault, since the count has room for every code, and its groups are the
packed bits with the padding of EFLUSH. -/
theorem sessionPacksTheConcatenatedCodes : Obligations.SessionPacksTheConcatenatedCodes := by
  unfold Obligations.SessionPacksTheConcatenatedCodes
  intro s text herr htrdy hpsym hacnt hne hvalid hroom
  have hready : s.phase = .ready := (phase_ready s).mpr ⟨herr, htrdy⟩
  have hbase : bitBase s = 0 := by simp [bitBase, hpsym]
  have hcount : bitBase s + (messageBits s text).length ≤ 4294967295 := by rwa [hbase, Nat.zero_add]
  obtain ⟨groups, hout, hlen, hbits⟩ := closeSession_groups (messageBits s text) hacnt
  refine ⟨_, groups, execAll_encodeSession hready hne hvalid hcount, ?_, rfl, hout, hlen, hbits, ?_⟩
  · rw [closeSession, packSession, packBits_frame]
    exact herr
  · have hpbits := bitBase_packSession hcount
    rwa [hbase, Nat.zero_add] at hpbits

end Sys2Proof.Machine
end

section
/-! SUPPORT. The decode commands: what DECBIT, DECB and the DECBITs of a bit-string do where their walk succeeds and
where it fails, the DECBs of a stream, and a packed message decoded again (spec rules R109 to R113). -/

namespace Sys2Proof.Machine

variable {s : State} {bit : Bool} {bits : List Bool} {n : BitVec 4} {g : Byte} {c : Cause} {nxt last : NodeIdx}
  {oc : Option Ch} {out : List Ch}

/-! Moves of the traverser (R111, R112) -/

theorem tstep_of_no_child {t : List (Nat × Node)} {cur : NodeIdx} (hchild : (nodeAt t cur).child bit = 0) :
    tstep t cur bit = .error .invalidPath := if_pos hchild

/-- A walk fails where its first move fails or the walk after that move does (R111). -/
theorem walk_cons_eq_error {t : List (Nat × Node)} {cur : NodeIdx} : walk t cur (bit :: bits) = .error c ↔
    tstep t cur bit = .error c ∨ ∃ nxt oc, tstep t cur bit = .ok (nxt, oc) ∧ walk t nxt bits = .error c := by
  rw [walk_cons]
  rcases tstep t cur bit with c' | ⟨nxt, oc⟩
  · simp
  · rcases hw : walk t nxt bits with c' | r
    · simp [hw]
    · simp [hw]

theorem tstep_error {t : List (Nat × Node)} {cur : NodeIdx} (hstep : tstep t cur bit = .error c) :
    c = .invalidPath := walk_error (walk_cons_eq_error.mpr (Or.inl hstep) : walk t cur [bit] = .error c)

/-- A walk over two pieces of a stream succeeds exactly when both walks do (R111 corner case 3). -/
theorem walk_append_eq_ok {t : List (Nat × Node)} {cur : NodeIdx} {bs cs : List Bool} :
    walk t cur (bs ++ cs) = .ok (last, out) ↔ ∃ mid first rest, walk t cur bs = .ok (mid, first) ∧
      walk t mid cs = .ok (last, rest) ∧ out = first ++ rest := by
  rw [walk_append]
  rcases walk t cur bs with c | ⟨mid, first⟩
  · simp
  · rcases hw : walk t mid cs with c | ⟨last', rest⟩
    · simp [hw]
    · simp [hw, eq_comm]

/-- A walk emits at most one character for each bit (R111). -/
theorem length_le_of_walk {t : List (Nat × Node)} {cur : NodeIdx} (hw : walk t cur bits = .ok (last, out)) :
    out.length ≤ bits.length := by
  induction bits generalizing cur out with
  | nil => cases hw; exact Nat.le_refl _
  | cons b bits ih =>
    obtain ⟨nxt, oc, rest, -, hrest, rfl⟩ := walk_cons_eq_ok.mp hw
    have hone : oc.toList.length ≤ 1 := by cases oc <;> simp
    have hmore := ih hrest
    simp only [List.length_append, List.length_cons]
    omega

/-- The state after moves that end at `last` and complete the characters `out` (R110, R111). -/
def traverseTo (last : NodeIdx) (out : List Ch) (s : State) : State :=
  { s with cur := last, outc := s.outc ++ out }

@[simp] theorem traverseTo_phase (last : NodeIdx) (out : List Ch) (s : State) :
    (traverseTo last out s).phase = s.phase := rfl

@[simp] theorem traverseTo_nil (s : State) : traverseTo s.cur [] s = s := by simp [traverseTo]

@[simp] theorem traverseTo_traverseTo (mid last : NodeIdx) (out out' : List Ch) (s : State) :
    traverseTo last out' (traverseTo mid out s) = traverseTo last (out ++ out') s := by
  simp [traverseTo]

/-! DECBIT (R110) -/

theorem exec_decbit (hready : s.phase = .ready) (hstep : tstep s.node s.cur bit = .ok (nxt, oc)) :
    exec (.decbit bit) s = .next (traverseTo nxt oc.toList s) :=
  exec_of_ruleOf_ok ((executes_decbit ..).mpr hready) (moveOne_ok_iff.mpr ⟨nxt, oc, hstep, rfl⟩)

theorem exec_decbit_of_error (hready : s.phase = .ready) (hstep : tstep s.node s.cur bit = .error c) :
    exec (.decbit bit) s = .next (recordFault 7 (encode (.decbit bit)) s) := by
  have hrule : ruleOf (.decbit bit) s = .error c := by rw [ruleOf, moveOne, hstep]
  rw [exec_of_ruleOf_error ((executes_decbit ..).mpr hready) hrule, tstep_error hstep]
  rfl

theorem exec_decbit_of_loading (hloading : s.phase = .loading) :
    exec (.decbit bit) s = .next (recordFault 5 (encode (.decbit bit)) s) :=
  exec_of_sequenceError (by rw [hloading]; rfl)

/-- After a move the traverser is at the root exactly where the move completed a character: a move never
follows the link 0 (R25, R110). -/
theorem atRoot_traverseTo (hstep : tstep s.node s.cur bit = .ok (nxt, oc)) :
    (traverseTo nxt oc.toList s).atRoot = true ↔ ∃ ch, (traverseTo nxt oc.toList s).outc = s.outc ++ [ch] := by
  obtain ⟨hchild, ⟨-, rfl, rfl⟩ | ⟨-, rfl, rfl⟩⟩ := tstep_eq_ok.mp hstep
  · simp [traverseTo, State.atRoot]
  · simpa [traverseTo, State.atRoot] using hchild

/-- Settles O31: in READY the move of DECBIT's rule is one of three by the child and its tag; in LOADING the
acceptance table refuses DECBIT. -/
theorem decbitMovesOrEmitsOrFaults : Obligations.DecbitMovesOrEmitsOrFaults := by
  unfold Obligations.DecbitMovesOrEmitsOrFaults
  intro s bit nxt herr hnxt
  obtain rfl : nxt = (nodeAt s.node s.cur).child bit := hnxt
  have hready (htrdy : s.trdy = true) : s.phase = .ready := (phase_ready s).mpr ⟨herr, htrdy⟩
  refine ⟨fun htrdy hchild hleaf => ?leaf, fun htrdy hchild hopen => ?branch, fun htrdy hnone => ?noChild,
    fun htrdy => ?loading, fun t h ht => ?atRoot⟩
  case leaf => exact exec_decbit (hready htrdy) (tstep_eq_ok.mpr ⟨hchild, Or.inl ⟨hleaf, rfl, rfl⟩⟩)
  case branch =>
    rw [exec_decbit (hready htrdy) (tstep_eq_ok.mpr ⟨hchild, Or.inr ⟨hopen, rfl, rfl⟩⟩)]
    simp [traverseTo]
  case noChild => exact exec_decbit_of_error (hready htrdy) (tstep_of_no_child hnone)
  case loading => exact exec_decbit_of_loading ((phase_loading s).mpr ⟨herr, htrdy⟩)
  case atRoot =>
    obtain ⟨-, hrule⟩ := ruleOf_ok_of_exec h herr ht
    obtain ⟨nxt, oc, hstep, rfl⟩ := moveOne_ok_iff.mp hrule
    exact atRoot_traverseTo hstep

/-! DECB (R111) -/

theorem groupBits_length_le (n : BitVec 4) (g : Byte) : (groupBits n g).length ≤ n.toNat := List.length_take_le ..

theorem exec_decb (hready : s.phase = .ready) (hw : walk s.node s.cur (groupBits n g) = .ok (last, out)) :
    exec (.decb n g) s = .next (traverseTo last out s) :=
  exec_of_ruleOf_ok ((executes_decb ..).mpr hready) (decodeGroup_ok_iff.mpr ⟨last, out, hw, rfl⟩)

theorem exec_decb_of_error (hready : s.phase = .ready) (hw : walk s.node s.cur (groupBits n g) = .error c) :
    exec (.decb n g) s = .next (recordFault 7 (encode (.decb n g)) s) := by
  have hrule : ruleOf (.decb n g) s = .error c := by rw [ruleOf, decodeGroup, hw]
  rw [exec_of_ruleOf_error ((executes_decb ..).mpr hready) hrule, walk_error hw]
  rfl

/-- Settles O32: DECB's rule is the walk, whose only fault is InvalidPath and which emits at most once a bit. -/
theorem decbWalksTheLeadingBitsOrFaults : Obligations.DecbWalksTheLeadingBitsOrFaults := by
  unfold Obligations.DecbWalksTheLeadingBitsOrFaults
  intro s n g herr htrdy
  have hready : s.phase = .ready := (phase_ready s).mpr ⟨herr, htrdy⟩
  exact ⟨fun last out hw =>
      ⟨exec_decb hready hw, (length_le_of_walk hw).trans (groupBits_length_le n g)⟩,
    fun c hw => exec_decb_of_error hready hw⟩

/-! The DECBITs of a bit-string (R111 corner case 1) -/

theorem execAll_decbits (hready : s.phase = .ready) (hw : walk s.node s.cur bits = .ok (last, out)) :
    execAll (bits.map .decbit) s = .next (traverseTo last out s) := by
  induction bits generalizing s out with
  | nil => cases hw; rw [traverseTo_nil]; rfl
  | cons b bits ih =>
    obtain ⟨nxt, oc, rest, hstep, hrest, rfl⟩ := walk_cons_eq_ok.mp hw
    refine execAll_cons_eq_next.mpr ⟨_, exec_decbit hready hstep, ?_⟩
    rw [← traverseTo_traverseTo]
    exact ih hready hrest

/-- Where the walk fails, the DECBIT of the failing bit faults, and those after it are ignored (R143 step 1). -/
theorem execAll_decbits_of_error (hready : s.phase = .ready) (hw : walk s.node s.cur bits = .error c) :
    ∃ u, execAll (bits.map .decbit) s = .next u ∧ u.err = true ∧ u.cause = 7 := by
  induction bits generalizing s with
  | nil => cases hw
  | cons b bits ih =>
    rw [List.map_cons]
    obtain hstep | ⟨nxt, oc, hstep, hrest⟩ := walk_cons_eq_error.mp hw
    · have hignored : execAll (bits.map .decbit) (recordFault 7 (encode (.decbit b)) s) =
          .next (recordFault 7 (encode (.decbit b)) s) := execAll_of_err (by simp) rfl
      exact ⟨_, execAll_cons_eq_next.mpr ⟨_, exec_decbit_of_error hready hstep, hignored⟩, rfl, rfl⟩
    · obtain ⟨u, hu, hfault⟩ := ih (s := traverseTo nxt oc.toList s) hready hrest
      exact ⟨u, execAll_cons_eq_next.mpr ⟨_, exec_decbit hready hstep, hu⟩, hfault⟩

/-- Settles O33: where the walk over the group's bits succeeds both sides end where it ends, and where it fails both
sides end with InvalidPath recorded. -/
theorem decbEqualsItsDecbits : Obligations.DecbEqualsItsDecbits := by
  unfold Obligations.DecbEqualsItsDecbits
  intro s n g herr htrdy
  have hready : s.phase = .ready := (phase_ready s).mpr ⟨herr, htrdy⟩
  cases hw : walk s.node s.cur (groupBits n g) with
  | ok r =>
    obtain ⟨last, out⟩ := r
    rw [exec_decb hready hw, execAll_decbits hready hw]
    refine ⟨fun t _ => Iff.rfl, fun t h ht => ?_⟩
    cases h
    exact absurd ht (by simp [traverseTo, herr])
  | error c =>
    obtain ⟨u, hu, huerr, hcause⟩ := execAll_decbits_of_error hready hw
    rw [exec_decb_of_error hready hw, hu]
    refine ⟨fun t ht => ⟨fun h => ?_, fun h => ?_⟩, fun t h _ => ?_⟩
    · cases h; cases ht
    · cases h; exact absurd ht (by simp [huerr])
    · cases h; exact ⟨rfl, u, rfl, huerr, hcause⟩

/-! The DECBs of a stream (R113, R128) -/

theorem groupBits_ofNat {k : Nat} (hk : k ≤ 8) (g : Byte) :
    groupBits (BitVec.ofNat 4 k) g = (byteBits g).take k := by
  rw [groupBits, BitVec.toNat_ofNat, Nat.mod_eq_of_lt (by omega)]

/-- The DECBs of a stream walk its real bits (R111 corner case 3, R113). -/
theorem execAll_decodeStream {groups : List Byte} {k : Nat} {stream : List Instr} (hready : s.phase = .ready)
    (hstream : decodeStream groups k = some stream)
    (hw : walk s.node s.cur ((streamBits groups).take k) = .ok (last, out)) :
    execAll stream s = .next (traverseTo last out s) := by
  fun_induction decodeStream groups k generalizing s stream out with
  | case1 => cases hstream
  | case2 g k hk =>
    cases hstream
    rw [streamBits_singleton, ← groupBits_ofNat hk.2] at hw
    exact execAll_cons_eq_next.mpr ⟨_, exec_decb hready hw, rfl⟩
  | case3 => cases hstream
  | case4 g g' gs k ih =>
    obtain ⟨rest, hrest, rfl⟩ := Option.map_eq_some_iff.mp hstream
    have hlater := ((decodeStream_isSome_iff ..).mp (Option.isSome_of_eq_some hrest)).1
    have hlong : 8 ≤ k := by omega
    have hbits : (streamBits (g :: g' :: gs)).take k = groupBits 8 g ++ (streamBits (g' :: gs)).take (k - 8) := by
      rw [streamBits, List.flatMap_cons, List.take_append, List.take_of_length_le hlong]
      rfl
    rw [hbits] at hw
    obtain ⟨mid, first, more, hfirst, hmore, rfl⟩ := walk_append_eq_ok.mp hw
    refine execAll_cons_eq_next.mpr ⟨_, exec_decb hready hfirst, ?_⟩
    rw [← traverseTo_traverseTo]
    exact ih hready hrest hmore

/-! The pair of ENCODE and decode (R113) -/

/-- A path that ends at a leaf is a walk that emits the leaf's character and returns to the root: a node on the way has
a child, so it is no leaf (R112). -/
theorem TreeInv.walk_of_follow_leaf (h : TreeInv s) {cur i : NodeIdx} {b : Bool} {p : List Bool}
    (hp : follow s.node cur (b :: p) = some i) (hi : (nodeAt s.node i).tag = .leaf) :
    walk s.node cur (b :: p) = .ok (0, [(nodeAt s.node i).ch]) := by
  induction p generalizing cur b with
  | nil =>
    obtain ⟨hchild, hend⟩ := follow_cons_eq_some.mp hp
    cases hend
    exact walk_singleton (tstep_eq_ok.mpr ⟨hchild, Or.inl ⟨hi, rfl, rfl⟩⟩)
  | cons d p ih =>
    obtain ⟨hchild, hrest⟩ := follow_cons_eq_some.mp hp
    have hopen : (nodeAt s.node ((nodeAt s.node cur).child b)).tag ≠ .leaf := by
      intro hleaf
      obtain ⟨hl, hr⟩ := h.links _ (by rw [hleaf]; decide)
      refine (follow_cons_eq_some.mp hrest).1 ?_
      cases d
      · exact hl
      · exact hr
    exact walk_cons_eq_ok.mpr
      ⟨_, none, _, tstep_eq_ok.mpr ⟨hchild, Or.inr ⟨hopen, rfl, rfl⟩⟩, ih hrest, rfl⟩

theorem EntryInv.codeBits_ne_nil (h : EntryInv s) {ch : Ch} (hvalid : (clutAt s.clut ch).valid = true) :
    codeBits (clutAt s.clut ch) ≠ [] := by
  have hlen := (h.codeFits ch hvalid).1
  rw [← codeBits_length] at hlen
  exact List.ne_nil_of_length_pos hlen

/-- The code of a character, walked from the root, emits the character and ends at the root (R112, R113). -/
theorem Inv.walk_codeBits (h : Inv s) {ch : Ch} (hvalid : (clutAt s.clut ch).valid = true) :
    walk s.node 0 (codeBits (clutAt s.clut ch)) = .ok (0, [ch]) := by
  obtain ⟨i, hpath, hi⟩ := h.codes.leafOf ch hvalid
  obtain ⟨b, p, hcode⟩ := List.exists_cons_of_ne_nil (h.entries.codeBits_ne_nil hvalid)
  rw [hcode] at hpath ⊢
  rw [h.tree.walk_of_follow_leaf hpath (by rw [hi]), hi]

/-- The concatenated codes of a message, walked from the root, emit the message and end at the root (R113). -/
theorem Inv.walk_messageBits (h : Inv s) {text : List Ch} (hvalid : ∀ ch ∈ text, (clutAt s.clut ch).valid = true) :
    walk s.node 0 (messageBits s text) = .ok (0, text) := by
  induction text with
  | nil => rfl
  | cons ch text ih =>
    obtain ⟨hch, htext⟩ := List.forall_mem_cons.mp hvalid
    rw [messageBits_cons]
    exact walk_append_eq_ok.mpr ⟨0, [ch], text, h.walk_codeBits hch, ih htext, rfl⟩

theorem EntryInv.messageBits_length_pos (h : EntryInv s) {text : List Ch} (hne : text ≠ [])
    (hvalid : ∀ ch ∈ text, (clutAt s.clut ch).valid = true) : 0 < (messageBits s text).length := by
  obtain ⟨ch, rest, rfl⟩ := List.exists_cons_of_ne_nil hne
  rw [messageBits_cons, List.length_append]
  exact Nat.add_pos_left (List.length_pos_of_ne_nil (h.codeBits_ne_nil (hvalid ch List.mem_cons_self))) _

/-- A pack session leaves the tree, the traverser, the characters emitted and the flags of the phase alone (R54). -/
theorem closeSession_packSession_frame (bs : List Bool) (s : State) :
    closeSession (packSession bs s) = { s with
      acc := 0, acnt := 0, psym := false, pbits := (closeSession (packSession bs s)).pbits
      outb := (closeSession (packSession bs s)).outb } := by
  simp only [closeSession, packSession]
  rw [packBits_frame]

/-- Settles O52: the groups' leading bits are the concatenated codes, each of which is the path to its character's
leaf, and the session left the tree and the traverser alone. -/
theorem roundTripGivesTheMessageBack : Obligations.RoundTripGivesTheMessageBack := by
  unfold Obligations.RoundTripGivesTheMessageBack
  intro s text hinv herr htrdy hpsym hcur hne hvalid hroom
  have hready : s.phase = .ready := (phase_ready s).mpr ⟨herr, htrdy⟩
  obtain ⟨t, groups, hsession, hterr, -, houtb, hlen, hbits, hpbits⟩ :=
    sessionPacksTheConcatenatedCodes s text herr htrdy hpsym (hinv.packer.closedEmpty hpsym).2 hne hvalid hroom
  have hframe : t = { s with
      acc := 0, acnt := 0, psym := false, pbits := t.pbits, outb := t.outb } := by
    have hcount : bitBase s + (messageBits s text).length ≤ 4294967295 := by simpa [bitBase, hpsym] using hroom
    have ht := hsession.symm.trans (execAll_encodeSession hready hne hvalid hcount)
    cases ht
    exact closeSession_packSession_frame ..
  have hnode : t.node = s.node := by rw [hframe]
  have htcur : t.cur = 0 := by rw [hframe]; exact hcur
  have houtc : t.outc = s.outc := by rw [hframe]
  have htready : t.phase = .ready := by rw [hframe]; exact hready
  have hpos := hinv.entries.messageBits_length_pos hne hvalid
  obtain ⟨stream, hstream⟩ := Option.isSome_iff_exists.mp
    ((decodeStream_isSome_iff groups t.pbits.toNat).mpr (by omega))
  have hwalk : walk t.node t.cur ((streamBits groups).take t.pbits.toNat) = .ok (0, text) := by
    rw [hbits, hpbits, List.take_left, hnode, htcur]
    exact hinv.walk_messageBits hvalid
  refine ⟨t, groups, stream, traverseTo 0 text t, hsession, hterr, houtb, hpbits, hlen, hstream,
    execAll_decodeStream htready hstream hwalk, hterr, ?_, rfl⟩
  rw [traverseTo, houtc]

end Sys2Proof.Machine
end

section
/-! SUPPORT. The host's algorithms: what the frequency counter lists, that a tree is built of every frequency table that
is not empty, and the code table of a message (spec rules R121 to R127). -/

namespace Sys2Proof.Machine

/-! The frequency counter (R121) -/

theorem mem_addOccurrence_of_ne {c d : Ch} (hne : d ≠ c) (n : Nat) (freq : List (Ch × Nat)) :
    (d, n) ∈ addOccurrence c freq ↔ (d, n) ∈ freq := by
  induction freq with
  | nil => simp [addOccurrence, hne]
  | cons e freq ih =>
    obtain ⟨d', m⟩ := e
    by_cases hcd : c = d'
    · subst hcd
      simp [addOccurrence, hne]
    · simp [addOccurrence, hcd, ih]

/-- A character counted once more is listed with one more than before, or with 1 where it was not listed. -/
theorem mem_addOccurrence_self {c : Ch} {n : Nat} {freq : List (Ch × Nat)} (hkeys : (freq.map Prod.fst).Nodup) :
    (c, n) ∈ addOccurrence c freq ↔
      (∃ k, (c, k) ∈ freq ∧ n = k + 1) ∨ c ∉ freq.map Prod.fst ∧ n = 1 := by
  induction freq with
  | nil => simp [addOccurrence]
  | cons e freq ih =>
    obtain ⟨d, m⟩ := e
    obtain ⟨hd, hfreq⟩ := List.nodup_cons.mp hkeys
    by_cases hcd : c = d
    · subst hcd
      have hgone : ∀ k, (c, k) ∉ freq := fun k hk => hd (List.mem_map.mpr ⟨_, hk, rfl⟩)
      simp [addOccurrence, hgone]
    · simp [addOccurrence, hcd, ih hfreq]

theorem frequencies_concat (message : List Ch) (c : Ch) :
    frequencies (message ++ [c]) = addOccurrence c (frequencies message) := List.foldl_concat ..

theorem mem_frequencies {message : List Ch} {c : Ch} {n : Nat} :
    (c, n) ∈ frequencies message ↔ n = message.count c ∧ 0 < n := by
  induction message using List.reverseRecOn generalizing c n with
  | nil => simp [frequencies]
  | append_singleton message d ih =>
    rw [frequencies_concat, List.count_append, List.count_singleton]
    by_cases hcd : c = d
    · subst hcd
      rw [mem_addOccurrence_self (frequencies_keys_nodup message)]
      by_cases hc : c ∈ message
      · simp [ih, hc]
        omega
      · simp [ih, hc, List.count_eq_zero_of_not_mem hc]
        omega
    · rw [mem_addOccurrence_of_ne hcd, ih]
      simp [Ne.symm hcd]

/-- Settles O57, by induction on the message: its last character is counted once more, the others as before. -/
theorem frequenciesCountOccurrences : Obligations.FrequenciesCountOccurrences := by
  unfold Obligations.FrequenciesCountOccurrences
  exact fun message => ⟨frequencies_keys_nodup message, fun _ _ => mem_frequencies⟩

theorem mem_frequencies_keys {message : List Ch} {c : Ch} :
    c ∈ (frequencies message).map Prod.fst ↔ c ∈ message := by
  simp [mem_frequencies, List.count_pos_iff]

/-! A tree is built of every frequency table that is not empty (R122, R123) -/

theorem leastPositions_ne_nil {q : List HostTree} (hne : q ≠ []) : leastPositions q ≠ [] := by
  obtain ⟨t, ht, hleast⟩ := q.toFinset.exists_min_image HostTree.weight (by simpa using hne)
  obtain ⟨i, hi, hit⟩ := List.mem_iff_getElem.mp (List.mem_toFinset.mp ht)
  refine List.ne_nil_of_mem (a := i) ?_
  simpa [leastPositions, hi, hit] using hleast

/-- Whatever the tie-break, there is a tree to extract from a queue that is not empty (R123). -/
theorem exists_extractLeast_eq_some (tiebreak : List HostTree → Nat) {q : List HostTree} (hne : q ≠ []) :
    ∃ t q', extractLeast tiebreak q = some (t, q') := by
  have hlt : tiebreak q % (leastPositions q).length < (leastPositions q).length :=
    Nat.mod_lt _ (List.length_pos_of_ne_nil (leastPositions_ne_nil hne))
  have hi : (leastPositions q)[tiebreak q % (leastPositions q).length] < q.length :=
    List.mem_range.mp (List.mem_filter.mp (List.getElem_mem hlt)).1
  simp [extractLeast, hlt, hi]

/-- Every round of merging makes the queue one tree shorter, so one round less than there are trees is enough (R122). -/
theorem exists_mergeTrees_eq_some {tiebreak : List HostTree → Nat} {n : Nat} {q : List HostTree} (hne : q ≠ [])
    (hlen : q.length ≤ n + 1) : ∃ t, mergeTrees tiebreak n q = some t := by
  fun_induction mergeTrees tiebreak n q with
  | case1 => exact absurd rfl hne
  | case2 n t => exact ⟨t, rfl⟩
  | case3 => simp at hlen
  | case4 n q _ _ ha =>
    obtain ⟨a, q', ha'⟩ := exists_extractLeast_eq_some tiebreak hne
    cases ha.symm.trans ha'
  | case5 n q _ hmany a q' ha hb =>
    have hq' : q' ≠ [] := by
      rintro rfl
      exact hmany a (List.singleton_perm.mp (extractLeast_perm ha)).symm
    obtain ⟨b, q'', hb'⟩ := exists_extractLeast_eq_some tiebreak hq'
    cases hb.symm.trans hb'
  | case6 n q _ _ a q' ha b q'' hb ih =>
    have hq := (extractLeast_perm ha).length_eq
    have hq' := (extractLeast_perm hb).length_eq
    simp only [List.length_cons] at hq hq'
    exact ih (by simp) (by simp; omega)

theorem exists_buildTree_eq_some (tiebreak : List HostTree → Nat) {freq : List (Ch × Nat)} (hne : freq ≠ []) :
    ∃ t, buildTree tiebreak freq = some t :=
  exists_mergeTrees_eq_some (by simpa using hne) (by simp)

/-! The code table of a message (R124, R125, R127) -/

/-- Of two different pairs of a tree's code table neither code is a prefix of the other (R124). -/
theorem codes_not_prefix (t : HostTree) {e f : Ch × List Bool} (he : e ∈ t.codes) (hf : f ∈ t.codes) (hne : e ≠ f) :
    ¬ e.2 <+: f.2 := by
  have hsymm : Std.Symm fun e f : Ch × List Bool => ¬ Conflict e.2 f.2 := ⟨fun _ _ h hc => h (conflict_comm.mp hc)⟩
  exact fun hpre => (codes_pairwise_not_conflict t).forall he hf hne (Or.inl hpre)

section
variable {tiebreak : List HostTree → Nat} {message : List Ch} {freq : List (Ch × Nat)} {table : List (Ch × List Bool)}

theorem codeTable_keys (htable : codeTable tiebreak freq = some table) :
    (table.map Prod.fst).Perm (freq.map Prod.fst) := by
  obtain ⟨t, ht, rfl⟩ := Option.map_eq_some_iff.mp htable
  rw [codes_map_fst]
  exact buildTree_chars ht

theorem codeTable_keys_nodup (hfreq : freq.Perm (frequencies message)) (htable : codeTable tiebreak freq = some table) :
    (table.map Prod.fst).Nodup :=
  ((codeTable_keys htable).trans (hfreq.map _)).nodup_iff.mpr (frequencies_keys_nodup message)

/-- The host's table has a code for exactly the characters of the message (R121, R127). -/
theorem mem_message_iff (hfreq : freq.Perm (frequencies message)) (htable : codeTable tiebreak freq = some table)
    (c : Ch) : c ∈ message ↔ ∃ bs, (c, bs) ∈ table := by
  rw [← mem_frequencies_keys, ← ((codeTable_keys htable).trans (hfreq.map _)).mem_iff]
  simp

end

/-- Settles O58: the queue never runs empty before one tree is left, its leaves are the message's characters, and the
paths to two leaves part at a branch point. -/
theorem hostCodesArePrefixFreeAndCoverTheMessage : Obligations.HostCodesArePrefixFreeAndCoverTheMessage := by
  unfold Obligations.HostCodesArePrefixFreeAndCoverTheMessage
  intro tiebreak message freq hne hfreq
  have hfreq_ne : freq ≠ [] := by
    obtain ⟨c, hc⟩ := List.exists_mem_of_ne_nil message hne
    obtain ⟨e, he, -⟩ := List.mem_map.mp (mem_frequencies_keys.mpr hc)
    exact List.ne_nil_of_mem (hfreq.mem_iff.mpr he)
  obtain ⟨t, ht⟩ := exists_buildTree_eq_some tiebreak hfreq_ne
  have htable : codeTable tiebreak freq = some t.codes := Option.map_eq_some_iff.mpr ⟨t, ht, rfl⟩
  refine ⟨t.codes, htable, codeTable_keys_nodup hfreq htable, mem_message_iff hfreq htable, fun c bs he => ?nonempty,
    fun c bs d cs he hf hcd => ?prefixFree⟩
  case nonempty => exact List.ne_nil_of_length_pos (codes_length_pos t _ he)
  case prefixFree => exact codes_not_prefix t he hf fun heq => hcd (congrArg Prod.fst heq)

end Sys2Proof.Machine
end

section
/-! SUPPORT. A message encoded and decoded with the host's table: what a block with a table loaded holds, what a session
leaves of it, and the DECBs of the session's groups (spec rules R68, R127 to R129). -/

namespace Sys2Proof.Machine

/-! The commands of a decode (R68, R113) and the session before it (R54) -/

section
variable {s : State} {text : List Ch} {groups : List Byte} {k : Nat} {stream : List Instr}

/-- The DECBs of a stream whose real bits walk from the root to the root complete the characters of that walk (R113). -/
theorem decodes_of_walk (herr : s.err = false) (htrdy : s.trdy = true) (hcur : s.cur = 0)
    (hstream : decodeStream groups k = some stream)
    (hw : walk s.node 0 ((streamBits groups).take k) = .ok (0, text)) :
    ∃ u, execAll stream s = .next u ∧ u.err = false ∧ u.outc = s.outc ++ text ∧ u.cur = 0 :=
  ⟨traverseTo 0 text s, execAll_decodeStream ((phase_ready s).mpr ⟨herr, htrdy⟩) hstream (by rwa [hcur]), herr,
    rfl, rfl⟩

/-- DECS of such a stream does so wherever the traverser stands (R68, R83). -/
theorem decs_decodes_of_walk (herr : s.err = false) (htrdy : s.trdy = true)
    (hstream : decodeStream groups k = some stream)
    (hw : walk s.node 0 ((streamBits groups).take k) = .ok (0, text)) :
    ∃ whole u, decs groups k = some whole ∧ execAll whole s = .next u ∧ u.err = false ∧ u.outc = s.outc ++ text ∧
      u.cur = 0 := by
  obtain ⟨u, hrun, hu⟩ := decodes_of_walk (s := { s with cur := 0 }) herr htrdy rfl hstream hw
  exact ⟨.trst :: stream, u, (decs_eq_some_iff ..).mpr ⟨stream, hstream, rfl⟩,
    execAll_cons_eq_next.mpr ⟨_, exec_trst herr, hrun⟩, hu⟩

/-- A pack session from READY leaves the tree, the characters emitted and TRDY alone (R54). -/
theorem encodeSession_frame {t : State} (herr : s.err = false) (htrdy : s.trdy = true) (hpsym : s.psym = false)
    (hne : text ≠ []) (hvalid : ∀ c ∈ text, (clutAt s.clut c).valid = true)
    (hroom : (messageBits s text).length ≤ 4294967295) (h : execAll (encodeSession text) s = .next t) :
    t.node = s.node ∧ t.outc = s.outc ∧ t.trdy = s.trdy := by
  have hcount : bitBase s + (messageBits s text).length ≤ 4294967295 := by simpa [bitBase, hpsym] using hroom
  have ht := h.symm.trans (execAll_encodeSession ((phase_ready s).mpr ⟨herr, htrdy⟩) hne hvalid hcount)
  cases ht
  rw [closeSession_packSession_frame]
  exact ⟨rfl, rfl, rfl⟩

end

/-! A table loaded in whatever order (R94, R127) -/

/-- `t` is `s` with the pairs of `table` loaded, in whatever order, and READY at the root (R94, R173). -/
structure LoadedFrom (table : List (Ch × List Bool)) (s t : State) : Prop where
  inv : Inv t
  err : t.err = false
  trdy : t.trdy = true
  cur : t.cur = 0
  psym : t.psym = false
  outb : t.outb = s.outb
  outc : t.outc = s.outc
  codes : ∀ e ∈ table, (clutAt t.clut e.1).valid = true ∧ codeBits (clutAt t.clut e.1) = e.2

theorem loadedFrom_of_ldtab {table order : List (Ch × List Bool)} {cmds : List Instr} {s t : State} (hf : FaultInv s)
    (hs : s.err = false) (horder : order.Perm table) (hcmds : ldtab order = some cmds)
    (hrun : execAll cmds s = .next t) (ht : t.err = false) : LoadedFrom table s t := by
  obtain ⟨hinv, htrdy, hcur, hpsym, houtb, houtc, hcodes, -⟩ :=
    loadedTableIsTheGivenTable s t order cmds hf hs hcmds hrun ht
  exact ⟨hinv, ht, htrdy, hcur, hpsym, houtb, houtc, fun e he => hcodes e.1 e.2 (horder.mem_iff.mpr he)⟩

section
variable {table : List (Ch × List Bool)} {text : List Ch} {s t : State}

theorem LoadedFrom.valid (h : LoadedFrom table s t) (hcover : ∀ c ∈ text, ∃ bs, (c, bs) ∈ table) :
    ∀ c ∈ text, (clutAt t.clut c).valid = true := by
  intro c hc
  obtain ⟨bs, hbs⟩ := hcover c hc
  exact (h.codes _ hbs).1

/-- Two blocks with one table loaded pack a text into the same bits (R43, R129). -/
theorem LoadedFrom.messageBits_eq {q v : State} (h : LoadedFrom table s t) (h' : LoadedFrom table q v)
    (hcover : ∀ c ∈ text, ∃ bs, (c, bs) ∈ table) : messageBits t text = messageBits v text := by
  refine List.flatMap_congr fun c hc => ?_
  obtain ⟨bs, hbs⟩ := hcover c hc
  exact (h.codes _ hbs).2.trans (h'.codes _ hbs).2.symm

end

/-- Settles O59: the groups' leading bits are the concatenated codes of the table's pairs, which walk from the root to
the root in every block that holds the table, whether loaded again or left by the session as it was. -/
theorem hostEncodeThenDecodeGivesTheMessageBack : Obligations.HostEncodeThenDecodeGivesTheMessageBack := by
  unfold Obligations.HostEncodeThenDecodeGivesTheMessageBack
  intro tiebreak s r message freq table order cmds hf herr hne hfreq htable horder hcmds hrun hr hroom
  have hcover : ∀ c ∈ message, ∃ bs, (c, bs) ∈ table := fun c => (mem_message_iff hfreq htable c).mp
  have hload := loadedFrom_of_ldtab hf herr horder hcmds hrun hr
  have hvalid := hload.valid hcover
  obtain ⟨t, groups, hsession, hterr, -, houtb, hlen, hbits, hpbits⟩ :=
    sessionPacksTheConcatenatedCodes r message hload.err hload.trdy hload.psym
      (hload.inv.packer.closedEmpty hload.psym).2 hne hvalid hroom
  obtain ⟨hnode, houtc, htrdy⟩ := encodeSession_frame hload.err hload.trdy hload.psym hne hvalid hroom hsession
  have hreal : (streamBits groups).take t.pbits.toNat = messageBits r message := by
    rw [hbits, hpbits, List.take_left]
  have hpos := hload.inv.entries.messageBits_length_pos hne hvalid
  obtain ⟨stream, hstream⟩ := Option.isSome_iff_exists.mp
    ((decodeStream_isSome_iff groups t.pbits.toNat).mpr (by omega))
  refine ⟨t, groups, stream, hsession, hterr, by rw [houtb, hload.outb], hpbits, hstream,
    fun q v order' cmds' hq hqerr horder' hcmds' hrun' hv => ?reloaded, ?stillLoaded⟩
  case reloaded =>
    have hload' := loadedFrom_of_ldtab hq hqerr horder' hcmds' hrun' hv
    rw [← hload'.outc]
    refine decodes_of_walk hload'.err hload'.trdy hload'.cur hstream ?_
    rw [hreal, hload.messageBits_eq hload' hcover]
    exact hload'.inv.walk_messageBits (hload'.valid hcover)
  case stillLoaded =>
    rw [← hload.outc, ← houtc]
    refine decs_decodes_of_walk hterr (htrdy.trans hload.trdy) hstream ?_
    rw [hreal, hnode]
    exact hload.inv.walk_messageBits hvalid

end Sys2Proof.Machine
end

section
/-! SUPPORT. Faults and FAULTED: the commands the acceptance table refuses, what a fault writes, what a step does in
FAULTED, and the moves that leave it (spec rules R141, R143, R145, R148, R149, R151). -/

namespace Sys2Proof.Machine

variable {s : State}

/-- Settles O9: a step takes the word off the pending moves and issues it, and a legal word is its command. -/
theorem stepRunsTheDecodedCommand : Obligations.StepRunsTheDecodedCommand := by
  unfold Obligations.StepRunsTheDecodedCommand
  intro s w rest i hin hdec
  rw [step, takeMove_cons hin, perform, issue, hdec]

/-- A command in a phase whose row of R145 refuses it records SequenceError and changes nothing else. -/
theorem exec_of_phase_sequenceError {i : Instr} {p : Phase} (hphase : s.phase = p)
    (hd : disposition i p = .sequenceError) : exec i s = .next (recordFault 5 (encode i) s) :=
  exec_of_sequenceError (hphase ▸ hd)

/-- Settles O13, row by row of the acceptance table: ERR and TRDY fix the phase, and the row refuses the command. -/
theorem commandOutOfPhaseFaults : Obligations.CommandOutOfPhaseFaults := by
  unfold Obligations.CommandOutOfPhaseFaults
  intro s herr
  have hready (htrdy : s.trdy = true) : s.phase = .ready := (phase_ready s).mpr ⟨herr, htrdy⟩
  have hloading (htrdy : s.trdy = false) : s.phase = .loading := (phase_loading s).mpr ⟨herr, htrdy⟩
  refine ⟨?ldc, ?tfin, ?enc, ?eflush, ?decbit, ?decb⟩
  case ldc => exact fun htrdy _ _ _ => exec_of_phase_sequenceError (hready htrdy) rfl
  case tfin => exact fun htrdy => exec_of_phase_sequenceError (i := .tfin) (hready htrdy) rfl
  case enc => exact fun htrdy _ => exec_of_phase_sequenceError (hloading htrdy) rfl
  case eflush => exact fun htrdy => exec_of_phase_sequenceError (i := .eflush) (hloading htrdy) rfl
  case decbit => exact fun htrdy _ => exec_of_phase_sequenceError (hloading htrdy) rfl
  case decb => exact fun htrdy _ _ => exec_of_phase_sequenceError (hloading htrdy) rfl

/-- Settles O14: of the things a command can do, only fault entry sets ERR; a rule that succeeds does not. -/
theorem faultingCommandChangesOnlyTheFaultRegisters : Obligations.FaultingCommandChangesOnlyTheFaultRegisters := by
  unfold Obligations.FaultingCommandChangesOnlyTheFaultRegisters
  intro i s t herr h ht
  rcases exec_cases h with ⟨-, hs⟩ | ⟨-, c, rfl⟩ | ⟨-, hr⟩
  · exact absurd hs (by simp [herr])
  · exact ⟨rfl, cause_code_range c⟩
  · exact absurd (ruleOf_ok_err hr ht) (by simp [herr])

/-- Settles O11: where a fault is recorded an illegal word raises no other, and a legal word that is not 0x10000000 is
another command than RESET, which FAULTED ignores. -/
theorem faultedIgnoresEveryWordButReset : Obligations.FaultedIgnoresEveryWordButReset := by
  unfold Obligations.FaultedIgnoresEveryWordButReset
  intro s w rest hin herr hw
  cases hdec : decode w with
  | error e => rw [step_of_illegal hin hdec, rejectWord, if_pos herr]
  | ok i =>
    have hi : i ≠ .reset := by
      rintro rfl
      exact hw (encode_of_decode hdec).1.symm
    rw [stepRunsTheDecodedCommand s w rest i hin hdec]
    exact exec_of_err hi herr

/-- The RESET word and the reset input both end in the reset state, in every phase (R80, R170). -/
theorem step_of_resetMove {rest : List HostMove}
    (hin : s.input = .command 0x10000000 :: rest ∨ s.input = .reset :: rest) :
    step s = .next { State.reset with input := rest } := by
  rcases hin with hin | hin
  · rw [stepRunsTheDecodedCommand s _ rest .reset hin rfl]
    exact exec_reset _
  · rw [step, takeMove_cons hin]
    rfl

/-- In FAULTED a step whose move is neither the RESET word nor the reset input changes nothing of the block (R143,
R151, R152). -/
theorem step_of_faulted (herr : s.err = true)
    (hin : ∀ rest, ¬ (s.input = .command 0x10000000 :: rest ∨ s.input = .reset :: rest)) :
    step s = .next { s with input := s.input.tail } := by
  cases hmoves : s.input with
  | nil => rw [step, takeMove_nil hmoves, List.tail_nil, ← hmoves]
  | cons m rest =>
    cases m with
    | command w =>
      exact faultedIgnoresEveryWordButReset s w rest hmoves herr fun hw => hin rest (Or.inl (hw ▸ hmoves))
    | reset => exact absurd (Or.inr hmoves) (hin rest)
    | read raddr => exact takeMove_cons hmoves

/-- Settles O16: a move is a reset move, which ends in the reset state, or one that FAULTED ignores. -/
theorem onlyResetLeavesFaulted : Obligations.OnlyResetLeavesFaulted := by
  unfold Obligations.OnlyResetLeavesFaulted
  refine ⟨fun s t herr h => ?_, fun s rest _ hin => step_of_resetMove hin⟩
  by_cases hreset : ∃ rest, s.input = .command 0x10000000 :: rest ∨ s.input = .reset :: rest
  · obtain ⟨rest, hin⟩ := hreset
    rw [step_of_resetMove hin] at h
    cases h
    exact Or.inr ⟨rfl, rest, hin⟩
  · rw [step_of_faulted herr (not_exists.mp hreset)] at h
    cases h
    exact Or.inl ⟨herr, rfl⟩

end Sys2Proof.Machine
end

section
/-! SUPPORT. Reset and progress: the two reset moves, that a step always answers, and the state reset leaves (spec rules
R26, R27, R151, R170, R189 to R191). -/

namespace Sys2Proof.Machine

/-- Settles O8: the reset input and the RESET word are the two reset moves. -/
theorem resetInputEqualsResetCommand : Obligations.ResetInputEqualsResetCommand := by
  unfold Obligations.ResetInputEqualsResetCommand
  exact fun s rest => ⟨step_of_resetMove (Or.inr rfl), step_of_resetMove (Or.inl rfl)⟩

/-- Every move of the host is answered by a next state (R6, R190). -/
theorem perform_next (m : HostMove) (s : State) : ∃ t, perform m s = .next t := by
  cases m with
  | command w => exact issue_next w s
  | reset => exact ⟨resetBlock s, rfl⟩
  | read raddr => exact ⟨s, rfl⟩

/-- Settles O17: with a move pending a step performs it, and with none it is idle. -/
theorem everyStepEndsInANextState : Obligations.EveryStepEndsInANextState := by
  unfold Obligations.EveryStepEndsInANextState
  intro s
  cases hin : s.input with
  | nil => exact ⟨s, takeMove_nil hin⟩
  | cons m rest =>
    rw [step, takeMove_cons hin]
    exact perform_next m _

/-- The reset state is a fixed point of reset (R27). -/
theorem resetBlock_reset : resetBlock State.reset = State.reset := rfl

/-- Settles O49: reset establishes the invariants from every state, and it leaves the reset state as it is. -/
theorem resetStateSatisfiesTheInvariants : Obligations.ResetStateSatisfiesTheInvariants := by
  unfold Obligations.ResetStateSatisfiesTheInvariants
  rw [← resetBlock_reset]
  exact inv_resetBlock State.reset

end Sys2Proof.Machine
end
